-- ==== Sys2Proof/Word.lean ====
section
/-! DEFINITION. The word types of CTRGEN: bytes, 32-bit bus words, 18-bit window offsets, 16-byte sequences. -/

namespace Sys2Proof

/-- One byte of a byte sequence (`00_scope.md` R10). -/
abbrev Byte := BitVec 8

/-- A register word or a bus word, 32 bits, bit 0 least significant (`00_scope.md` R9). -/
abbrev Word := BitVec 32

/-- An 18-bit byte offset from `CTRGEN_BASE` (`10_state.md` R17). -/
abbrev Offset := BitVec 18

/-- `Bytes16`: a byte sequence of length 16, byte 0 first (`00_scope.md` R10). -/
abbrev Bytes16 := Vector Byte 16

/-- `zeros(16)` (`00_scope.md` R10). -/
def zeros16 : Bytes16 := Vector.replicate 16 0

end Sys2Proof
end

