-- ==== Sys2Proof/Config.lean ====
section
/-! DEFINITION. What an instance of CTRGEN fixes (`00_scope.md` R7, R8), and the free values of the spec. -/

namespace Sys2Proof

/-- The parameters of one instance that the register interface shows (`00_scope.md` R7). State holds them,
so every claim is made for every instance; no step changes them. -/
structure Params where
  /-- `BUF_BYTES`: the capacity in bytes of each of IN_A, IN_B and OUT. -/
  bufBytes   : Nat
  /-- `HAS_BITDIFF`: the optional bit-difference analyzer is present. -/
  hasBitdiff : Bool
  deriving DecidableEq, Repr

/-- The default values of `00_scope.md` R7: `BUF_BYTES = 4096`, `HAS_BITDIFF = 1`. -/
def Config.defaultParams : Params := { bufBytes := 4096, hasBitdiff := true }

/-- The type of the block cipher `E`: key first, then the input block (`00_scope.md` R8). -/
abbrev BlockCipher := Bytes16 → Bytes16 → Bytes16

/-- `E`, the external 128-bit block cipher: an open parameter, so a constant nothing can evaluate
(`00_scope.md` R8, `93_implementation_defined.md` U1; log entry 4). -/
opaque Config.cipher : BlockCipher

/-- `ANY8`: free 8-bit draws, one for each number of a draw (`00_scope.md` R14, `10_state.md` R41; log entry 5). -/
opaque Config.any8 : Nat → Byte

/-- `ANY32`: free 32-bit draws, one for each number of a draw (`00_scope.md` R14,
`70_reset_and_hazards.md` R153; log entry 5). -/
opaque Config.any32 : Nat → Word

end Sys2Proof
end

