-- ==== Sys2Proof/Syntax.lean ====
section
/-! DEFINITION. The commands of CTRGEN, one constructor per row of `opcode_table.json` (`30_encoding.md` R70). -/

namespace Sys2Proof

/-- The five commands. A command word carries no operands (`30_encoding.md` R76). -/
inductive Instr where
  /-- CBLK: build one counter block (`40_counter_block.md` R90). -/
  | cblk
  /-- KSTR: write keystream to OUT (`41_keystream.md` R94). -/
  | kstr
  /-- CTRX: XOR a message with the keystream (`42_ctr_cipher.md` R101). -/
  | ctrx
  /-- XDIF: per-byte XOR difference, right-aligned (`43_bit_difference.md` R108). -/
  | xdif
  /-- HAMD: Hamming distance (`43_bit_difference.md` R110). -/
  | hamd
  deriving DecidableEq, Repr

end Sys2Proof
end

