-- ==== Sys2Proof/WellFormed.lean ====
section
/-! DEFINITION. Which parameters are legal and which commands an instance has. -/

namespace Sys2Proof

/-- The legal values of `BUF_BYTES` (`00_scope.md` R7): a multiple of 16, from 16 to 65536. -/
abbrev Params.wf (p : Params) : Prop :=
  p.bufBytes % 16 = 0 ∧ 16 ≤ p.bufBytes ∧ p.bufBytes ≤ 65536

/-- The command belongs to the optional bit-difference analyzer (`00_scope.md` R4). -/
def Instr.isBitdiff : Instr → Bool
  | .cblk => false
  | .kstr => false
  | .ctrx => false
  | .xdif => true
  | .hamd => true

/-- A command is well formed on an instance that has the unit it belongs to (`30_encoding.md` R73). -/
def Instr.wf (hasBitdiff : Bool) (i : Instr) : Bool := !i.isBitdiff || hasBitdiff

end Sys2Proof
end

