-- ==== Sys2Proof/Machine/State.lean ====
section
/-! DEFINITION. The state of CTRGEN and of the two agents of its model (`10_state.md`), the reasons a step can
stop, and the state after reset (`70_reset_and_hazards.md` R146). -/

namespace Sys2Proof.Machine

open Sys2Proof

/-- The three byte buffers (`10_state.md` R33). -/
inductive Buffer where
  /-- IN_A: operand A, and the message of CTRX. -/
  | inA
  /-- IN_B: operand B. -/
  | inB
  /-- OUT: the result buffer, read-only to the host. -/
  | out
  deriving DecidableEq, Repr

/-- The errors a command can report in STATUS.ERRCODE (`60_exceptions.md` R124). The reserved codes 3, 4 and
7 to 15 have no constructor: no command raises them. -/
inductive ErrCode where
  | invalidKeyLength
  | invalidNonceLength
  | lengthRange
  | illegalCommand
  deriving DecidableEq, Repr

/-- The size in bytes of a bus transfer (`10_state.md` R17). -/
inductive AccessSize where
  | one
  | two
  | four
  deriving DecidableEq, Repr

/-- The direction of a bus transfer, with its write data (`10_state.md` R17). -/
inductive Direction where
  | read
  | write (w : Word)
  deriving DecidableEq, Repr

/-- One transfer on the host bus slave port (`10_state.md` R17). -/
structure Transfer where
  off  : Offset
  size : AccessSize
  dir  : Direction
  deriving DecidableEq, Repr

/-- The response of a transfer: the read data (0 for a write) and the flag BUSERR (`10_state.md` R17). -/
structure Response where
  data   : Word
  buserr : Bool
  deriving DecidableEq, Repr

/-- A transfer that has taken place, with its response (`30_encoding.md` R80). -/
structure Transaction where
  xfer : Transfer
  resp : Response
  deriving DecidableEq, Repr

/-- One base operation of a host program (`30_encoding.md` R78). `xfer` covers `wr` and `rd`, and every other
transfer the port can carry (`10_state.md` R17). -/
inductive HostOp where
  | xfer (t : Transfer)
  | rdx (off : Offset) (imm : Word)
  | rdm (off : Offset) (imm mask : Word)
  | poll
  deriving DecidableEq, Repr

/-- The host agent (`10_state.md` R16): the rest of its program, the transactions it has made (newest first,
`30_encoding.md` R80), and whether a harness check of `rdx` or `rdm` has failed (`30_encoding.md` R78). -/
structure BusMaster where
  program    : List HostOp
  trace      : List Transaction
  testFailed : Bool
  deriving DecidableEq, Repr

/-- What moves next: the host, the engine (`10_state.md` R16), or the reset input (`10_state.md` R20). -/
inductive Turn where
  | host
  | engine
  | rstN
  deriving DecidableEq, Repr

/-- The stored fields of STATUS (`10_state.md` R27). BUSY is not stored: it is 1 exactly when a command is
pending (`10_state.md` R38). -/
structure Status where
  done    : Bool
  err     : Bool
  werr    : Bool
  errcode : BitVec 4
  deriving DecidableEq, Repr

/-- The operand registers that the host writes and no command writes (`10_state.md` R29 to R32, R36, R37). -/
structure Operands where
  keyLen   : Byte
  nonceLen : Byte
  lenA     : Word
  lenB     : Word
  indexLo  : Word
  indexHi  : Word
  key      : Bytes16
  nonce    : Bytes16
  deriving DecidableEq, Repr

/-- The buffer bytes of the window that have been written, each under its offset from `CTRGEN_BASE`
(`10_state.md` R23), strictly rising. An offset that is not listed is `unwritten` (`10_state.md` R41). -/
abbrev Memory := List Host.Cell

/-- The canonical form of memory: offsets strictly rising. An unlisted offset reads as no value, which no
entry can hold, so equal memories are equal lists. -/
abbrev Memory.wf (m : Memory) : Prop := m.Pairwise fun c d => c.1 < d.1

/-- Why a command's meaning stops, and why a step stops the machine. -/
inductive Fault where
  /-- `UnwrittenRead(buffer, index)`: CTRX, XDIF or HAMD reads an input byte that nothing has written since reset
  (`10_state.md` R41, U5). The engine's step records it, and a step with it recorded stops with it, unless it is the
  reset event (log entry 6). Safe: the hardware returns some value and goes on (`60_exceptions.md` R138). -/
  | unwrittenRead (b : Buffer) (index : Nat)
  deriving DecidableEq, Repr

/-- Everything the spec gives the machine. -/
structure State where
  /-- CAPS: the parameters of the instance (`10_state.md` R25). -/
  params    : Params
  /-- CTRL.IE (`10_state.md` R26). -/
  ie        : Bool
  /-- STATUS without BUSY (`10_state.md` R27). -/
  status    : Status
  /-- The pending-command latch (`10_state.md` R38). -/
  pending   : Option Word
  /-- KEY_LEN, NONCE_LEN, LEN_A, LEN_B, INDEX, KEY and NONCE. -/
  operands  : Operands
  /-- OUT_LEN (`10_state.md` R34). -/
  outLen    : Word
  /-- RESULT (`10_state.md` R35). -/
  result    : Word
  /-- The bytes of IN_A, IN_B and OUT (`10_state.md` R33, R41). -/
  mem       : Memory
  /-- The sticky `BusError` records, newest first (`20_memory.md` R60). -/
  busErrors : List Offset
  /-- The `UnwrittenRead` record; at most one, since with it recorded only the reset event follows (`10_state.md` R41,
  `70_reset_and_hazards.md` R146; log entry 6). -/
  unwrittenRead : Option Fault
  /-- The host agent (`10_state.md` R16). -/
  master    : BusMaster
  /-- The turns already fixed by the environment, next first (log entry 2). -/
  schedule  : List Turn
  /-- The model's own counter of free draws (log entry 5). -/
  draws     : Nat
  deriving DecidableEq, Repr

/-- Why an instruction has no meaning in the model. -/
inductive Refusal where
  /-- A row of the opcode table with no meaning yet; no arm of `exec` raises it. Safe. -/
  | notModelled (mnemonic : String)
  deriving DecidableEq, Repr

/-- Every field of STATUS is 0 after reset (`10_state.md` R27). -/
def Status.reset : Status := { done := false, err := false, werr := false, errcode := 0 }

/-- The reset values of the operand registers (`10_state.md` R23, R29 to R32, R36, R37). -/
def Operands.reset : Operands :=
  { keyLen := 0, nonceLen := 0, lenA := 0, lenB := 0, indexLo := 0, indexHi := 0,
    key := zeros16, nonce := zeros16 }

/-- A host with no program and an empty record. -/
def BusMaster.idle : BusMaster := { program := [], trace := [], testFailed := false }

/-- The state right after reset of an instance with parameters `p` (`70_reset_and_hazards.md` R146). -/
def State.resetWith (p : Params) : State :=
  { params := p, ie := false, status := Status.reset, pending := none, operands := Operands.reset,
    outLen := 0, result := 0, mem := [], busErrors := [], unwrittenRead := none,
    master := BusMaster.idle, schedule := [], draws := 0 }

/-- The state right after reset, with the default parameters of `00_scope.md` R7. -/
def State.reset : State := State.resetWith Config.defaultParams

end Sys2Proof.Machine
end

