-- ==== Sys2Proof/Machine/Operands.lean ====
section
/-! DEFINITION. Byte order, lanes, operand assembly and the byte-sequence functions of the commands
(`00_scope.md` R10 to R13, `20_memory.md` R58, `30_encoding.md` R77). -/

namespace Sys2Proof.Machine

open Sys2Proof

/-! ### Big-endian conversions (`00_scope.md` R11) -/

/-- `be_int(s)`: the big-endian unsigned integer of a byte sequence. -/
def beInt : List Byte → Nat
  | [] => 0
  | b :: s => b.toNat * 256 ^ s.length + beInt s

/-- `be_bytes_n(v)`: the `n`-byte big-endian form of `v mod 256^n`. -/
def beBytes : Nat → Nat → List Byte
  | 0, _ => []
  | n + 1, v => BitVec.ofNat 8 (v / 256 ^ n) :: beBytes n v

theorem length_beBytes (n v : Nat) : (beBytes n v).length = n := by
  induction n with
  | zero => rfl
  | succ n ih => simp [beBytes, ih]

/-- `be_bytes_16(v)`. -/
def beBytes16 (v : Nat) : Bytes16 := ⟨(beBytes 16 v).toArray, by simp [length_beBytes]⟩

/-- `popcount` of the low `width` bits of `v` (`00_scope.md` R12). -/
def popcount : Nat → Nat → Nat
  | 0, _ => 0
  | w + 1, v => v % 2 + popcount w (v / 2)

/-- `s ⊕ t` on byte sequences of equal length (`00_scope.md` R12). -/
def xorBytes (s t : List Byte) : List Byte := List.zipWith (· ^^^ ·) s t

/-- The 128-bit vector of a 16-byte value on the cipher port: byte `k` at bits `[127-8k : 120-8k]`
(`10_state.md` R18). -/
def portVector (b : Bytes16) : BitVec 128 := BitVec.ofNat 128 (beInt b.toList)

/-! ### Lanes (`20_memory.md` R58) -/

/-- The word whose lanes are four bytes, the first in bits [7:0]. -/
def laneWord (b0 b1 b2 b3 : Byte) : Word := b3 ++ b2 ++ b1 ++ b0

/-- Lane `i` of a word. -/
def lane (w : Word) (i : Nat) : Byte := w.extractLsb' (8 * i) 8

/-- `lanes(v, 4j)` of a 16-byte register. -/
def lanes16 (v : Bytes16) (j : Fin 4) : Word :=
  laneWord v[4 * j.val] v[4 * j.val + 1] v[4 * j.val + 2] v[4 * j.val + 3]

/-- `setlanes(v, 4j, w)` of a 16-byte register. -/
def setLanes16 (v : Bytes16) (j : Fin 4) (w : Word) : Bytes16 :=
  (((v.set (4 * j.val) (lane w 0)).set (4 * j.val + 1) (lane w 1)).set (4 * j.val + 2)
    (lane w 2)).set (4 * j.val + 3) (lane w 3)

/-! ### Operand registers (`30_encoding.md` R77) -/

/-- `INDEX = INDEX_HI · 2^32 + INDEX_LO`, zero-extended into unbounded arithmetic. -/
def Operands.index (o : Operands) : Nat := o.indexHi.toNat * 2 ^ 32 + o.indexLo.toNat

/-! ### Buffers (`10_state.md` R23, R33) -/

/-- The offset of byte 0 of a buffer. -/
def Buffer.base : Buffer → Nat
  | .inA => 0x10000
  | .inB => 0x20000
  | .out => 0x30000

/-- The offset lies in one of the three buffers of `n` bytes. -/
abbrev inBuffers (n a : Nat) : Prop :=
  (0x10000 ≤ a ∧ a < 0x10000 + n) ∨ (0x20000 ≤ a ∧ a < 0x20000 + n) ∨ (0x30000 ≤ a ∧ a < 0x30000 + n)

/-! ### Right alignment (`43_bit_difference.md` R107) -/

/-- `zeros(n - len(a)) ‖ a`. -/
def alignRight (n : Nat) (a : List Byte) : List Byte := List.replicate (n - a.length) 0 ++ a

/-- `A' ⊕ B'`: the per-byte XOR of two sequences aligned on their last bytes. -/
def byteDifference (a b : List Byte) : List Byte :=
  xorBytes (alignRight (max a.length b.length) a) (alignRight (max a.length b.length) b)

/-- The sum of the bytes' popcounts (`00_scope.md` R12). -/
def popcountBytes (s : List Byte) : Nat := (s.map fun b => popcount 8 b.toNat).sum

/-- `distance(a, b)`: XOR byte by byte, popcount each byte and sum (`43_bit_difference.md` R111). -/
def hammingDistance (a b : List Byte) : Nat := popcountBytes (byteDifference a b)

end Sys2Proof.Machine
end

