-- ==== Sys2Proof/Machine/Flags.lean ====
section
/-! DEFINITION. STATUS, its error codes and its write-one-to-clear write, and the interrupt output
(`10_state.md` R19, R27, `60_exceptions.md` R124, R128 to R136). -/

namespace Sys2Proof.Machine

open Sys2Proof

/-- The value of STATUS.ERRCODE for an error (`60_exceptions.md` R124). -/
def ErrCode.code : ErrCode → BitVec 4
  | .invalidKeyLength => 1
  | .invalidNonceLength => 2
  | .lengthRange => 5
  | .illegalCommand => 6

/-- A value ERRCODE can hold: 0, or the code of an error (`60_exceptions.md` R124, U10). -/
abbrev legalErrcode (c : BitVec 4) : Prop := c = 0 ∨ c = 1 ∨ c = 2 ∨ c = 5 ∨ c = 6

/-- STATUS.BUSY (`10_state.md` R38). -/
def State.busy (s : State) : Bool := s.pending.isSome

/-- The interrupt output: `irq = CTRL.IE AND STATUS.DONE` (`10_state.md` R19). -/
def State.irq (s : State) : Bool := s.ie && s.status.done

/-- The word STATUS reads as (`10_state.md` R27, `20_memory.md` R56). -/
def statusWord (st : Status) (busy : Bool) : Word :=
  (0 : BitVec 20) ++ st.errcode ++ (0 : BitVec 4) ++ BitVec.ofBool st.werr ++ BitVec.ofBool st.err ++
    BitVec.ofBool st.done ++ BitVec.ofBool busy

/-- A host write of `w` to STATUS: bits 1, 2 and 3 clear DONE, ERR with ERRCODE, and WERR (`10_state.md` R27). -/
def Status.write (st : Status) (w : Word) : Status :=
  { done := st.done && !w.getLsbD 1
    err := st.err && !w.getLsbD 2
    errcode := if w.getLsbD 2 then 0 else st.errcode
    werr := st.werr && !w.getLsbD 3 }

/-- STATUS when a command is accepted: DONE, ERR and ERRCODE cleared, WERR kept (`60_exceptions.md` R128). -/
def Status.accepted (st : Status) : Status := { st with done := false, err := false, errcode := 0 }

/-- STATUS when a command succeeds (`60_exceptions.md` R129). -/
def Status.succeeded (st : Status) : Status := { st with done := true, err := false, errcode := 0 }

/-- STATUS when a command fails with `c` (`60_exceptions.md` R130). -/
def Status.failed (st : Status) (c : ErrCode) : Status :=
  { st with done := true, err := true, errcode := c.code }

/-- STATUS when a host write was dropped because BUSY = 1 (`70_reset_and_hazards.md` R150). -/
def Status.dropped (st : Status) : Status := { st with werr := true }

end Sys2Proof.Machine
end

