-- ==== Sys2Proof/Machine/Ops.lean ====
section
/-! DEFINITION. The shared operations: memory, command checks, acceptance and completion, the register map,
host reads and writes, bus errors, and the reset event. -/

namespace Sys2Proof.Machine

open Sys2Proof

/-! ### Memory -/

/-- The byte at an offset, or none where it is `unwritten` (`10_state.md` R41). -/
def Memory.read? : Memory → Nat → Option Byte
  | [], _ => none
  | (b, v) :: m, a => if a = b then some v else Memory.read? m a

/-- Write one byte, keeping the canonical form. -/
def Memory.write : Memory → Nat → Byte → Memory
  | [], a, v => [(a, v)]
  | (b, u) :: m, a, v =>
    if a < b then (a, v) :: (b, u) :: m
    else if a = b then (a, v) :: m
    else (b, u) :: Memory.write m a v

/-- Write consecutive bytes from offset `a` up. -/
def Memory.writeBytes : Memory → Nat → List Byte → Memory
  | m, _, [] => m
  | m, a, v :: vs => Memory.writeBytes (Memory.write m a v) (a + 1) vs

/-- The byte `k` of a buffer, or none where it is `unwritten`. -/
def State.bufByte (s : State) (b : Buffer) (k : Nat) : Option Byte := s.mem.read? (b.base + k)

/-- `BufRead(B, k)` of a command: an `unwritten` byte is the model fault `UnwrittenRead` (`10_state.md` R33, R41). -/
def bufRead (b : Buffer) (s : State) (k : Nat) : Except Fault Byte :=
  match s.bufByte b k with
  | some v => .ok v
  | none => .error (.unwrittenRead b k)

/-- `BufRead` of an operand of `len` bytes aligned on the right in `n` bytes: 0x00 to the left of it
(`43_bit_difference.md` R108). -/
def bufReadAligned (b : Buffer) (len n : Nat) (s : State) (k : Nat) : Except Fault Byte :=
  if n - len ≤ k then bufRead b s (k - (n - len)) else .ok 0

/-- The bytes a loop over the indices `ks` reads, in that order; the first fault ends it. -/
def readEach (f : Nat → Except Fault Byte) : List Nat → Except Fault (List Byte)
  | [] => .ok []
  | k :: ks =>
    match f k with
    | .error e => .error e
    | .ok v =>
      match readEach f ks with
      | .error e => .error e
      | .ok vs => .ok (v :: vs)

/-! ### Acceptance and completion (`60_exceptions.md` R128 to R130) -/

/-- `accept(w)` (`60_exceptions.md` R128). -/
def State.accept (s : State) (w : Word) : State :=
  { s with pending := some w, status := s.status.accepted }

/-- `complete()` (`60_exceptions.md` R129). -/
def State.complete (s : State) : State :=
  { s with pending := none, status := s.status.succeeded }

/-- `raise CmdError(code)`: the one way a command fails (`60_exceptions.md` R130). -/
def State.raiseCmdError (s : State) (c : ErrCode) : State :=
  { s with pending := none, status := s.status.failed c }

/-- `BufWrite(OUT, k, bs[k])` for every `k`, and `OUT_LEN <- len(bs)`. -/
def State.writeOut (s : State) (bs : List Byte) : State :=
  { s with mem := s.mem.writeBytes Buffer.out.base bs, outLen := BitVec.ofNat 32 bs.length }

/-- `RESULT <- d`. -/
def State.writeResult (s : State) (d : Nat) : State := { s with result := BitVec.ofNat 32 d }

/-! ### Command checks (`60_exceptions.md` R125 to R127) -/

/-- The commands that check KEY_LEN (`60_exceptions.md` R127). -/
def usesKey : Instr → Bool
  | .cblk => false
  | .kstr => true
  | .ctrx => true
  | .xdif => false
  | .hamd => false

/-- The commands that check NONCE_LEN (`60_exceptions.md` R127). -/
def usesNonce : Instr → Bool
  | .cblk => true
  | .kstr => true
  | .ctrx => true
  | .xdif => false
  | .hamd => false

/-- A length the command uses is greater than `BUF_BYTES` (`60_exceptions.md` R126). -/
def lengthOutOfRange (i : Instr) (s : State) : Bool :=
  match i with
  | .cblk => false
  | .kstr => decide (s.params.bufBytes < s.operands.lenA.toNat)
  | .ctrx => decide (s.params.bufBytes < s.operands.lenA.toNat)
  | .xdif => decide (s.params.bufBytes < s.operands.lenA.toNat ∨ s.params.bufBytes < s.operands.lenB.toNat)
  | .hamd => decide (s.params.bufBytes < s.operands.lenA.toNat ∨ s.params.bufBytes < s.operands.lenB.toNat)

/-- The first failing check of a decoded command, in the order of `60_exceptions.md` R125. -/
def failedCheck (i : Instr) (s : State) : Option ErrCode :=
  if !i.wf s.params.hasBitdiff then some .illegalCommand
  else if usesKey i && s.operands.keyLen != 16 then some .invalidKeyLength
  else if usesNonce i && s.operands.nonceLen != 16 then some .invalidNonceLength
  else if lengthOutOfRange i s then some .lengthRange
  else none

/-- Run a command: the checks first, then its effect if all of them pass (`60_exceptions.md` R125, R131). -/
def afterChecks (i : Instr) (s : State) (effect : Host.Outcome State Fault Refusal) :
    Host.Outcome State Fault Refusal :=
  match failedCheck i s with
  | some c => .next (s.raiseCmdError c)
  | none => effect

/-- The effect of a command that first reads its input bytes: a fault there comes before any write
(`42_ctr_cipher.md` R101). -/
def withInput (input : Except Fault (List Byte)) (effect : List Byte → State) :
    Host.Outcome State Fault Refusal :=
  match input with
  | .error e => .fault e
  | .ok bs => .next (effect bs)

/-! ### The register map (`10_state.md` R23) -/

/-- What an offset of the window names. -/
inductive Reg where
  | id | caps | ctrl | status | cmd | keyLen | nonceLen | lenA | lenB | indexLo | indexHi | outLen | result
  | key (j : Fin 4)
  | nonce (j : Fin 4)
  | buf (b : Buffer) (k : Nat)
  deriving DecidableEq, Repr

/-- The rows of the register map below 0x00060. -/
def registerMap : List (Nat × Reg) :=
  [(0x00000, .id), (0x00004, .caps), (0x00008, .ctrl), (0x0000C, .status), (0x00010, .cmd),
   (0x00014, .keyLen), (0x00018, .nonceLen), (0x0001C, .lenA), (0x00020, .lenB),
   (0x00024, .indexLo), (0x00028, .indexHi), (0x0002C, .outLen), (0x00030, .result),
   (0x00040, .key 0), (0x00044, .key 1), (0x00048, .key 2), (0x0004C, .key 3),
   (0x00050, .nonce 0), (0x00054, .nonce 1), (0x00058, .nonce 2), (0x0005C, .nonce 3)]

/-- The buffer windows: 0x10000 bytes each, of which the first `BUF_BYTES` exist (`10_state.md` R23). -/
def bufferAt (p : Params) (off : Nat) : Option Reg :=
  if off % 0x10000 < p.bufBytes then
    if off / 0x10000 = 1 then some (.buf .inA (off % 0x10000))
    else if off / 0x10000 = 2 then some (.buf .inB (off % 0x10000))
    else if off / 0x10000 = 3 then some (.buf .out (off % 0x10000))
    else none
  else none

/-- The register at a 4-aligned offset; none where the map lists nothing (`20_memory.md` R60). -/
def regAt (p : Params) (off : Nat) : Option Reg :=
  match registerMap.lookup off with
  | some r => some r
  | none => bufferAt p off

/-! ### Host reads (`20_memory.md` R56) -/

/-- The constant of ID (`10_state.md` R24). -/
def idWord : Word := 0x43545247

/-- The word CAPS reads as (`10_state.md` R25). -/
def capsWord (p : Params) : Word :=
  (0 : BitVec 7) ++ BitVec.ofBool p.hasBitdiff ++ BitVec.ofNat 24 p.bufBytes

/-- `lanes(B, k)` for the host: each `unwritten` byte reads as a fresh draw `ANY8` (`10_state.md` R41). -/
def hostLanes (s : State) (b : Buffer) (k : Nat) : Word :=
  laneWord ((s.bufByte b k).getD (Config.any8 s.draws))
    ((s.bufByte b (k + 1)).getD (Config.any8 (s.draws + 1)))
    ((s.bufByte b (k + 2)).getD (Config.any8 (s.draws + 2)))
    ((s.bufByte b (k + 3)).getD (Config.any8 (s.draws + 3)))

/-- The data a host read of a register returns (`20_memory.md` R56). -/
def readReg (r : Reg) (s : State) : Word :=
  match r with
  | .id => idWord
  | .caps => capsWord s.params
  | .ctrl => BitVec.setWidth 32 (BitVec.ofBool s.ie)
  | .status => statusWord s.status s.busy
  | .cmd => 0
  | .keyLen => BitVec.setWidth 32 s.operands.keyLen
  | .nonceLen => BitVec.setWidth 32 s.operands.nonceLen
  | .lenA => s.operands.lenA
  | .lenB => s.operands.lenB
  | .indexLo => s.operands.indexLo
  | .indexHi => s.operands.indexHi
  | .outLen => if s.busy then Config.any32 s.draws else s.outLen
  | .result => if s.busy then Config.any32 s.draws else s.result
  | .key _ => 0
  | .nonce j => lanes16 s.operands.nonce j
  | .buf .inA k => hostLanes s .inA k
  | .buf .inB k => hostLanes s .inB k
  | .buf .out k => if s.busy then Config.any32 s.draws else hostLanes s .out k

/-- How many draw numbers a host read of a register uses up, so that the next read draws afresh. -/
def drawsOf (r : Reg) : Nat :=
  match r with
  | .outLen => 1
  | .result => 1
  | .buf _ _ => 4
  | _ => 0

/-! ### Host writes (`20_memory.md` R57) -/

/-- `GUARDED(action)`: dropped with WERR set while BUSY = 1 (`20_memory.md` R57). -/
def State.guarded (s : State) (action : State) : State :=
  if s.busy then { s with status := s.status.dropped } else action

/-- `setlanes(B, k, w)` of a buffer, which marks four bytes written. -/
def State.setBufLanes (s : State) (b : Buffer) (k : Nat) (w : Word) : State :=
  { s with mem := s.mem.writeBytes (b.base + k) [lane w 0, lane w 1, lane w 2, lane w 3] }

/-- The effect of a host write of `w` to a register (`20_memory.md` R57). -/
def writeReg (r : Reg) (w : Word) (s : State) : State :=
  match r with
  | .id => s
  | .caps => s
  | .outLen => s
  | .result => s
  | .ctrl => { s with ie := w.getLsbD 0 }
  | .status => { s with status := s.status.write w }
  | .cmd => s.guarded (s.accept w)
  | .keyLen => s.guarded { s with operands := { s.operands with keyLen := w.setWidth 8 } }
  | .nonceLen => s.guarded { s with operands := { s.operands with nonceLen := w.setWidth 8 } }
  | .lenA => s.guarded { s with operands := { s.operands with lenA := w } }
  | .lenB => s.guarded { s with operands := { s.operands with lenB := w } }
  | .indexLo => s.guarded { s with operands := { s.operands with indexLo := w } }
  | .indexHi => s.guarded { s with operands := { s.operands with indexHi := w } }
  | .key j => s.guarded { s with operands := { s.operands with key := setLanes16 s.operands.key j w } }
  | .nonce j => s.guarded { s with operands := { s.operands with nonce := setLanes16 s.operands.nonce j w } }
  | .buf .inA k => s.guarded (s.setBufLanes .inA k w)
  | .buf .inB k => s.guarded (s.setBufLanes .inB k w)
  | .buf .out _ => s

/-! ### One bus access (`20_memory.md` R50, R51, R56, R57, R60) -/

/-- The access is 4 bytes wide at a 4-aligned offset (`20_memory.md` R50). -/
abbrev Transfer.wf (t : Transfer) : Prop := t.size = .four ∧ t.off.toNat % 4 = 0

/-- The register an access reaches, or none where it gets `BUSERR` (`20_memory.md` R51, R60). -/
def Transfer.target (t : Transfer) (p : Params) : Option Reg :=
  if t.wf then regAt p t.off.toNat else none

/-- Record `BusError(off)` (`20_memory.md` R60). -/
def State.recordBusError (s : State) (off : Offset) : State :=
  { s with busErrors := off :: s.busErrors }

/-- Record `UnwrittenRead`: STATUS stays as it is (`60_exceptions.md` R138). That the latch and every other field do too is
DEDUCED (log entry 6). -/
def State.recordUnwrittenRead (s : State) (f : Fault) : State := { s with unwrittenRead := some f }

/-- The response to an access. -/
def busResponse (t : Transfer) (s : State) : Response :=
  match t.target s.params with
  | none => { data := 0, buserr := true }
  | some r =>
    match t.dir with
    | .read => { data := readReg r s, buserr := false }
    | .write _ => { data := 0, buserr := false }

/-- The state after an access. -/
def busEffect (t : Transfer) (s : State) : State :=
  match t.target s.params with
  | none => s.recordBusError t.off
  | some r =>
    match t.dir with
    | .read => { s with draws := s.draws + drawsOf r }
    | .write w => writeReg r w s

/-! ### Reset (`70_reset_and_hazards.md` R146, R147) -/

/-- The reset event: every register, the latch, the buffers and the fault records as after reset. The host, the
environment's turns and the draws already made are outside the device and stay (log entry 3). -/
def State.resetEvent (s : State) : State :=
  { State.resetWith s.params with master := s.master, schedule := s.schedule, draws := s.draws }

end Sys2Proof.Machine
end

