-- ==== Sys2Proof/Machine/BitDifference.lean ====
section
/-! DEFINITION. The optional bit-difference analyzer: XDIF and HAMD (`43_bit_difference.md`). -/

namespace Sys2Proof.Machine

open Sys2Proof

/-- `n = max(LEN_A, LEN_B)` (`43_bit_difference.md` R107). -/
def State.diffLength (s : State) : Nat := max s.operands.lenA.toNat s.operands.lenB.toNat

/-- Byte `k` of `A' ⊕ B'`, IN_A read before IN_B (`43_bit_difference.md` R108, R110). -/
def diffByte (s : State) (k : Nat) : Except Fault Byte :=
  match bufReadAligned .inA s.operands.lenA.toNat s.diffLength s k with
  | .error e => .error e
  | .ok x =>
    match bufReadAligned .inB s.operands.lenB.toNat s.diffLength s k with
    | .error e => .error e
    | .ok y => .ok (x ^^^ y)

/-- The bytes `A' ⊕ B'`, from `k = 0` up. -/
def diffInput (s : State) : Except Fault (List Byte) := readEach (diffByte s) (List.range s.diffLength)

/-- XDIF (`43_bit_difference.md` R108). -/
def execXdif (s : State) : Host.Outcome State Fault Refusal :=
  afterChecks .xdif s <| withInput (diffInput s) fun d => (s.writeOut d).complete

/-- HAMD (`43_bit_difference.md` R110). -/
def execHamd (s : State) : Host.Outcome State Fault Refusal :=
  afterChecks .hamd s <| withInput (diffInput s) fun d => (s.writeResult (popcountBytes d)).complete

end Sys2Proof.Machine
end

