-- ==== Sys2Proof/Machine/CounterBlock.lean ====
section
/-! DEFINITION. The counter-block function and CBLK (`40_counter_block.md`). -/

namespace Sys2Proof.Machine

open Sys2Proof

/-- `block(n, idx) = be_bytes_16((be_int(n) + idx) mod 2^128)` (`40_counter_block.md` R85). -/
def block (n : Bytes16) (idx : Nat) : Bytes16 := beBytes16 ((beInt n.toList + idx) % 2 ^ 128)

/-- CBLK (`40_counter_block.md` R90). -/
def execCblk (s : State) : Host.Outcome State Fault Refusal :=
  afterChecks .cblk s <|
    .next (s.writeOut (block s.operands.nonce s.operands.index).toList).complete

end Sys2Proof.Machine
end

