-- ==== Sys2Proof/Machine/Keystream.lean ====
section
/-! DEFINITION. The keystream function and KSTR (`41_keystream.md`). -/

namespace Sys2Proof.Machine

open Sys2Proof

/-- `nblocks(L) = (L + 15) div 16` (`41_keystream.md` R92). -/
def nblocks (L : Nat) : Nat := (L + 15) / 16

/-- `keystream(k, n, i0, L)` for a cipher `E`: the blocks `E(k, block(n, i0 + i))` for `i < nblocks(L)`,
concatenated and cut to `L` bytes (`41_keystream.md` R93). -/
def keystream (E : BlockCipher) (k n : Bytes16) (i0 L : Nat) : List Byte :=
  ((List.range (nblocks L)).flatMap fun i => (E k (block n (i0 + i))).toList).take L

/-- The keystream a command uses: KEY, NONCE and INDEX as they stand, for LEN_A bytes (`41_keystream.md` R97). -/
def State.keystream (E : BlockCipher) (s : State) : List Byte :=
  Machine.keystream E s.operands.key s.operands.nonce s.operands.index s.operands.lenA.toNat

/-- KSTR with the cipher `E` on the cipher port (`41_keystream.md` R94). -/
def kstrWith (E : BlockCipher) (s : State) : Host.Outcome State Fault Refusal :=
  afterChecks .kstr s <| .next (s.writeOut (s.keystream E)).complete

/-- KSTR (`41_keystream.md` R94). -/
def execKstr (s : State) : Host.Outcome State Fault Refusal := kstrWith Config.cipher s

end Sys2Proof.Machine
end

