-- ==== Sys2Proof/Machine/CtrCipher.lean ====
section
/-! DEFINITION. The CTR XOR cipher and CTRX (`42_ctr_cipher.md`). -/

namespace Sys2Proof.Machine

open Sys2Proof

/-- `apply(key, nonce, data)` from block index `i0`: the data XORed with the keystream (`42_ctr_cipher.md` R101, R102). -/
def ctrApply (E : BlockCipher) (k n : Bytes16) (i0 : Nat) (data : List Byte) : List Byte :=
  xorBytes data (keystream E k n i0 data.length)

/-- The bytes CTRX reads: `IN_A[0 .. LEN_A-1]`, in that order. -/
def ctrxInput (s : State) : Except Fault (List Byte) :=
  readEach (bufRead .inA s) (List.range s.operands.lenA.toNat)

/-- CTRX with the cipher `E` on the cipher port (`42_ctr_cipher.md` R101). -/
def ctrxWith (E : BlockCipher) (s : State) : Host.Outcome State Fault Refusal :=
  afterChecks .ctrx s <| withInput (ctrxInput s) fun data =>
    (s.writeOut (xorBytes data (s.keystream E))).complete

/-- CTRX (`42_ctr_cipher.md` R101). -/
def execCtrx (s : State) : Host.Outcome State Fault Refusal := ctrxWith Config.cipher s

end Sys2Proof.Machine
end

