-- ==== Sys2Proof/Machine/Dispatch.lean ====
section
/-! DEFINITION. The dispatch of a decoded command to its meaning, one arm per constructor. -/

namespace Sys2Proof.Machine

open Sys2Proof

def exec (i : Instr) (s : State) : Host.Outcome State Fault Refusal :=
  match i with
  | .cblk => Sys2Proof.Machine.execCblk s
  | .kstr => Sys2Proof.Machine.execKstr s
  | .ctrx => Sys2Proof.Machine.execCtrx s
  | .xdif => Sys2Proof.Machine.execXdif s
  | .hamd => Sys2Proof.Machine.execHamd s

end Sys2Proof.Machine
end

