-- ==== Sys2Proof/Decode.lean ====
section
/-! DEFINITION. Command-word decode, total on all 2^32 words, rejecting by name; and the encoder
(`30_encoding.md` R69 to R75). -/

namespace Sys2Proof

/-- Why a command word is illegal. -/
inductive Illegal where
  /-- `w[31:8] ≠ 0` (`30_encoding.md` R71). -/
  | upperBitsNotZero
  /-- OP is 0x00 or 0x06 to 0xFF (`30_encoding.md` R72). -/
  | reservedOp
  /-- XDIF or HAMD on an instance with `HAS_BITDIFF = 0` (`30_encoding.md` R73). -/
  | noBitdiff
  deriving DecidableEq, Repr

/-- CMD[7:0], the opcode field (`30_encoding.md` R69). -/
def opField (w : Word) : Byte := w.extractLsb' 0 8

/-- CMD[31:8], which must be zero (`30_encoding.md` R69). -/
def mbzField (w : Word) : BitVec 24 := w.extractLsb' 8 24

/-- `decode` of `30_encoding.md` R75. -/
def decode (hasBitdiff : Bool) (w : Word) : Except Illegal Instr :=
  if mbzField w ≠ 0 then .error .upperBitsNotZero
  else if opField w = 0x01 then .ok .cblk
  else if opField w = 0x02 then .ok .kstr
  else if opField w = 0x03 then .ok .ctrx
  else if opField w = 0x04 then (if hasBitdiff then .ok .xdif else .error .noBitdiff)
  else if opField w = 0x05 then (if hasBitdiff then .ok .hamd else .error .noBitdiff)
  else .error .reservedOp

/-- The OP column of the opcode map (`30_encoding.md` R70). -/
def opcode : Instr → Byte
  | .cblk => 0x01
  | .kstr => 0x02
  | .ctrx => 0x03
  | .xdif => 0x04
  | .hamd => 0x05

/-- The command word of a command: MBZ zero above OP (`30_encoding.md` R69, R70). -/
def encode (i : Instr) : Word := (0 : BitVec 24) ++ opcode i

/-- The command the decoder reads from the table's row word, on an instance with the default parameters.
A command is always one 32-bit word (`30_encoding.md` R69); every bit from `nbits` up is 0. -/
def decodeTableWord (nbits w : Nat) : Option Instr :=
  match decode Config.defaultParams.hasBitdiff (BitVec.ofNat 32 (w % 2 ^ nbits)) with
  | .ok i => some i
  | .error _ => none

end Sys2Proof
end

