-- ==== Sys2Proof/Machine/HostAgent.lean ====
section
/-! DEFINITION. The host agent: one step of a host program, and the pseudo-operations with their expansions
(`10_state.md` R16, `30_encoding.md` R78 to R80). -/

namespace Sys2Proof.Machine

open Sys2Proof

/-! ### Base operations (`30_encoding.md` R78) -/

/-- The transfer `MemRead(off, 4)`. -/
def readAt (off : Offset) : Transfer := { off := off, size := .four, dir := .read }

/-- The transfer `MemWrite(off, 4, w)`. -/
def writeAt (off : Offset) (w : Word) : Transfer := { off := off, size := .four, dir := .write w }

/-- `wr OFF, IMM`. -/
def wr (off : Offset) (imm : Word) : HostOp := .xfer (writeAt off imm)

/-- `rd OFF`. -/
def rd (off : Offset) : HostOp := .xfer (readAt off)

/-- The rest of the host's program becomes `p`. -/
def State.setProgram (s : State) (p : List HostOp) : State :=
  { s with master := { s.master with program := p } }

/-- A transaction is added to the host's record (`30_encoding.md` R80). -/
def State.record (s : State) (x : Transaction) : State :=
  { s with master := { s.master with trace := x :: s.master.trace } }

/-- A harness check: a failed one fails the test and changes nothing of CTRGEN (`30_encoding.md` R78). -/
def State.harnessCheck (s : State) (ok : Bool) : State :=
  { s with master := { s.master with testFailed := s.master.testFailed || !ok } }

/-- One bus access with its record. -/
def perform (t : Transfer) (s : State) : State :=
  (busEffect t s).record { xfer := t, resp := busResponse t s }

/-- The access that an operation makes. -/
def HostOp.access : HostOp → Transfer
  | .xfer t => t
  | .rdx off _ => readAt off
  | .rdm off _ _ => readAt off
  | .poll => readAt 0x0000C

/-- One base operation, with `w` the word its access reads; a `poll` that reads BUSY = 1 stays in the program. After a
failed check of `rdx` or `rdm` the program goes on with its rest: DESIGN CHOICE, since the spec says only that the test
has failed (log entry 9). -/
def hostOp (op : HostOp) (rest : List HostOp) (s : State) : State :=
  let w := (busResponse op.access s).data
  match op with
  | .xfer _ => (perform op.access s).setProgram rest
  | .rdx _ imm => ((perform op.access s).setProgram rest).harnessCheck (decide (w = imm))
  | .rdm _ imm mask => ((perform op.access s).setProgram rest).harnessCheck (decide (w &&& mask = imm))
  | .poll => if w.getLsbD 0 then perform op.access s else (perform op.access s).setProgram rest

/-- The host's step: its next operation, or nothing when its program has ended (`70_reset_and_hazards.md` R162). -/
def hostStep (s : State) : State :=
  match s.master.program with
  | [] => s
  | op :: rest => hostOp op rest s

/-! ### Pseudo-operations (`30_encoding.md` R79) -/

/-- `cmd NAME`. -/
def cmd (i : Instr) : HostOp := wr 0x00010 (encode i)

/-- `run NAME`. -/
def run (i : Instr) : List HostOp := [cmd i, .poll]

/-- `clrst`. -/
def clrst : HostOp := wr 0x0000C 0x0000000E

/-- `ldidx V`. For `V ≥ 2^64`, where the spec gives no expansion, `V div 2^32` is cut to its low 32 bits: DESIGN CHOICE
(log entry 15). -/
def ldidx (v : Nat) : List HostOp :=
  [wr 0x00024 (BitVec.ofNat 32 (v % 2 ^ 32)), wr 0x00028 (BitVec.ofNat 32 (v / 2 ^ 32))]

/-- The word that packs the bytes `4j` to `4j + 3` of a sequence, 0x00 past its end. -/
def packWord (s : List Byte) (j : Nat) : Word :=
  laneWord (s.getD (4 * j) 0) (s.getD (4 * j + 1) 0) (s.getD (4 * j + 2) 0) (s.getD (4 * j + 3) 0)

/-- Writes of the words of a sequence from an offset up. An offset past 0x3FFFF, where the spec gives no expansion, wraps
mod 2^18: DESIGN CHOICE (log entry 15). -/
def loadWords (base : Nat) (s : List Byte) : List HostOp :=
  (List.range ((s.length + 3) / 4)).map fun j => wr (BitVec.ofNat 18 (base + 4 * j)) (packWord s j)

/-- `ldkey s`. -/
def ldkey (s : Bytes16) : List HostOp := loadWords 0x00040 s.toList

/-- `ldnonce s`. -/
def ldnonce (s : Bytes16) : List HostOp := loadWords 0x00050 s.toList

/-- `ldbuf A, s`. -/
def ldbufA (s : List Byte) : List HostOp := loadWords Buffer.inA.base s

/-- `ldbuf B, s`. -/
def ldbufB (s : List Byte) : List HostOp := loadWords Buffer.inB.base s

end Sys2Proof.Machine
end

