-- ==== Sys2Proof/Machine/Engine.lean ====
section
/-! DEFINITION. The engine's step, and which agent moves in one step of the machine (`10_state.md` R16). -/

namespace Sys2Proof.Machine

open Sys2Proof

/-- A command's fault is recorded (`10_state.md` R41); what else a command answers stands. -/
def recordFault (s : State) (o : Host.Outcome State Fault Refusal) : Host.Outcome State Fault Refusal :=
  match o with
  | .next t => .next t
  | .fault f => .next (s.recordUnwrittenRead f)
  | .refused r => .refused r

/-- The engine executes the pending command to completion as one atomic update (`10_state.md` R16, R38), or records
its fault. An illegal word completes with ILLEGAL_COMMAND (`30_encoding.md` R71 to R73). With nothing pending it is
not enabled. -/
def engineStep (s : State) : Host.Outcome State Fault Refusal :=
  match s.pending with
  | none => .next s
  | some w =>
    match decode s.params.hasBitdiff w with
    | .error _ => .next (s.raiseCmdError .illegalCommand)
    | .ok i => recordFault s (exec i s)

/-- The turns still fixed by the environment become `r`. -/
def State.setSchedule (s : State) (r : List Turn) : State := { s with schedule := r }

/-- The agent that moves, or the reset event: the next turn of the schedule; with none left, the engine while a command
is pending and the host otherwise (log entry 2; weak fairness, `70_reset_and_hazards.md` R158). -/
def takeTurn (s : State) : Host.Outcome State Fault Refusal :=
  match s.schedule with
  | .engine :: r => engineStep (s.setSchedule r)
  | .host :: r => .next (hostStep (s.setSchedule r))
  | .rstN :: r => .next (s.setSchedule r).resetEvent
  | [] => if s.busy then engineStep s else .next (hostStep s)

/-- One step of the machine. With an `UnwrittenRead` recorded, every turn but the reset event stops with it (log
entry 6). -/
def advance (s : State) : Host.Outcome State Fault Refusal :=
  match s.unwrittenRead with
  | none => takeTurn s
  | some f => if s.schedule.head? = some .rstN then takeTurn s else .fault f

/-- A command word in the pending latch, no fault recorded, and the engine's turn next. -/
def State.latchWord (s : State) (w : Word) : State :=
  { s with pending := some w, unwrittenRead := none, schedule := .engine :: s.schedule }

end Sys2Proof.Machine
end

