-- ==== Sys2Proof/Machine/Step.lean ====
section
/-! DEFINITION. One step of the machine, and where the next command word lies. -/

namespace Sys2Proof.Machine

open Sys2Proof

/-- One step of the machine: of the host, of the engine, or the reset event (`10_state.md` R16). -/
def step (s : State) : Host.Outcome State Fault Refusal := Sys2Proof.Machine.advance s

/-- `s` with the command word of a table row in the pending latch, where the engine takes its next command
(`10_state.md` R38), no fault recorded, and the engine's turn next, so that the next step runs it (log entry 1). -/
def State.withFetchWord (s : State) (nbits w : Nat) : State :=
  s.latchWord (BitVec.ofNat 32 (w % 2 ^ nbits))

end Sys2Proof.Machine
end

