-- ==== Sys2Proof/Machine/HostReference.lean ====
section
/-! DEFINITION. The host-side reference functions (`48_host_reference.md`): not hardware, and no step uses them.
They let the malleability claims of the spec be stated. -/

namespace Sys2Proof.Machine

open Sys2Proof

/-- The errors of the host's own functions (`48_host_reference.md` R119, R122); CTRGEN never raises them. -/
inductive HostError where
  | invalidCorruptionValue
  | invariantViolation
  deriving DecidableEq, Repr

/-- `bitlen(m)` (`48_host_reference.md` R117). -/
def bitlen (m : Nat) : Nat := if m = 0 then 0 else m.log2 + 1

/-- `mask_bytes(m)` (`48_host_reference.md` R117). -/
def maskBytes (m : Nat) : List Byte := beBytes (bitlen m / 8 + 1) m

/-- The corruptor with a mask's bytes `t`, aligned on the last byte (`48_host_reference.md` R118). -/
def corruptWith (c t : List Byte) : List Byte :=
  c.take (c.length - min c.length t.length) ++
    xorBytes (c.drop (c.length - min c.length t.length)) (t.drop (t.length - min c.length t.length))

/-- `corrupt(C, m)` (`48_host_reference.md` R118). -/
def corrupt (c : List Byte) (m : Nat) : List Byte := corruptWith c (maskBytes m)

/-- `corrupt(C, m)` of any integer: a negative `m` is a host error (`48_host_reference.md` R119). -/
def corruptInt (c : List Byte) (m : Int) : Except HostError (List Byte) :=
  if m < 0 then .error .invalidCorruptionValue else .ok (corrupt c m.toNat)

/-- The driver's check: the two distances are equal, or the host raises `InvariantViolation`
(`48_host_reference.md` R121, R122). -/
def driverCheck (E : BlockCipher) (k n : Bytes16) (plaintext : List Byte) (m : Nat) : Except HostError Unit :=
  let c := ctrApply E k n 0 plaintext
  let c' := corrupt c m
  if hammingDistance (ctrApply E k n 0 c) (ctrApply E k n 0 c') = hammingDistance c c' then .ok ()
  else .error .invariantViolation

end Sys2Proof.Machine
end

