-- ==== Sys2Proof/Safety.lean ====
section
/-! DEFINITION. What a claim about CTRGEN is stated with: one step as a relation, the invariant of the machine,
the end of a run, and what a buffer holds. -/

namespace Sys2Proof.Machine

open Sys2Proof

/-- One step takes `s` to `t`. -/
def Steps (s t : State) : Prop := step s = .next t

/-- `k` steps take `s` to `t`. -/
def StepsIn : Nat → State → State → Prop
  | 0, s, t => s = t
  | k + 1, s, t => ∃ u, Steps s u ∧ StepsIn k u t

/-- The buffer holds the bytes `data` from index 0 up. -/
def State.Holds (s : State) (b : Buffer) (data : List Byte) : Prop :=
  ∀ k (h : k < data.length), s.bufByte b k = some data[k]

/-- The state holds the operand `a` of length LEN_A in IN_A (`43_bit_difference.md` R107). -/
def State.OperandA (s : State) (a : List Byte) : Prop := a.length = s.operands.lenA.toNat ∧ s.Holds .inA a

/-- The state holds the operand `b` of length LEN_B in IN_B (`43_bit_difference.md` R107). -/
def State.OperandB (s : State) (b : List Byte) : Prop := b.length = s.operands.lenB.toNat ∧ s.Holds .inB b

/-- Both states read the same at every offset outside the first `n` bytes of OUT. -/
def SameOutsideOut (n : Nat) (s t : State) : Prop :=
  ∀ a, ¬ (Buffer.out.base ≤ a ∧ a < Buffer.out.base + n) → t.mem.read? a = s.mem.read? a

/-- Both states read the same at every offset of the window. -/
def SameMemory (s t : State) : Prop := ∀ a, t.mem.read? a = s.mem.read? a

/-- What no command of `30_encoding.md` R76 writes: CAPS, CTRL, WERR, the operand registers, the fault records, and
everything outside the device. -/
def SameOutsideCommand (s t : State) : Prop :=
  t.params = s.params ∧ t.ie = s.ie ∧ t.status.werr = s.status.werr ∧ t.operands = s.operands ∧
  t.busErrors = s.busErrors ∧ t.unwrittenRead = s.unwrittenRead ∧ t.master = s.master ∧ t.schedule = s.schedule ∧ t.draws = s.draws

/-- The success completion (`60_exceptions.md` R129). -/
def Succeeded (t : State) : Prop :=
  t.pending = none ∧ t.status.done = true ∧ t.status.err = false ∧ t.status.errcode = 0

/-- The error completion with a code: STATUS and the latch change, and nothing else (`60_exceptions.md` R130). -/
def errorCompletion (s : State) (code : BitVec 4) : State :=
  { s with pending := none, status := { s.status with done := true, err := true, errcode := code } }

/-- From `s`, a command succeeded in `t` and wrote exactly the bytes `bs` to OUT from index 0: the completion, the
bytes, OUT_LEN, and the frame. -/
structure WroteOut (s t : State) (bs : List Byte) : Prop where
  completion : Succeeded t
  bytes      : t.Holds .out bs
  outLen     : t.outLen.toNat = bs.length
  otherBytes : SameOutsideOut bs.length s t
  result     : t.result = s.result
  frame      : SameOutsideCommand s t

/-- From `s`, a command succeeded in `t` and wrote exactly RESULT: the completion, RESULT, and the frame. -/
structure WroteResult (s t : State) (d : Nat) : Prop where
  completion : Succeeded t
  result     : t.result.toNat = d
  outLen     : t.outLen = s.outLen
  bytes      : SameMemory s t
  frame      : SameOutsideCommand s t

/-- Byte `k` of the operand `a`, aligned on the right in `n` bytes (`43_bit_difference.md` R107). -/
def alignedByte (a : List Byte) (n k : Nat) : Byte := if n - a.length ≤ k then a.getD (k - (n - a.length)) 0 else 0

/-- At index `k` the analyzer's loop reads a written byte of the operand, or pads (`43_bit_difference.md` R108). -/
def AlignedReadable (s : State) (b : Buffer) (len k : Nat) : Prop :=
  s.diffLength - len ≤ k → s.bufByte b (k - (s.diffLength - len)) ≠ none

/-- The first unwritten byte that the analyzer's loop reads, IN_A before IN_B at each index. -/
def AnalyzerFault (s : State) (f : Fault) : Prop :=
  ∃ k, k < s.diffLength ∧
    (∀ j, j < k → AlignedReadable s .inA s.operands.lenA.toNat j ∧ AlignedReadable s .inB s.operands.lenB.toNat j) ∧
    ((s.diffLength - s.operands.lenA.toNat ≤ k ∧
        s.bufByte .inA (k - (s.diffLength - s.operands.lenA.toNat)) = none ∧
        f = .unwrittenRead .inA (k - (s.diffLength - s.operands.lenA.toNat))) ∨
     (AlignedReadable s .inA s.operands.lenA.toNat k ∧ s.diffLength - s.operands.lenB.toNat ≤ k ∧
        s.bufByte .inB (k - (s.diffLength - s.operands.lenB.toNat)) = none ∧
        f = .unwrittenRead .inB (k - (s.diffLength - s.operands.lenB.toNat))))

/-- A length the analyzer uses is greater than `BUF_BYTES` (`60_exceptions.md` R126). -/
def AnalyzerTooLong (s : State) : Prop :=
  s.params.bufBytes < s.operands.lenA.toNat ∨ s.params.bufBytes < s.operands.lenB.toNat

/-- The offset is one the register map lists, for buffers of `n` bytes (`10_state.md` R23). -/
def Listed (n off : Nat) : Prop := off < 0x34 ∨ (0x40 ≤ off ∧ off < 0x60) ∨ inBuffers n off

/-- How many bytes of OUT a successful command writes, from index 0 (`30_encoding.md` R76). -/
def outBytes (i : Instr) (s : State) : Nat :=
  match i with
  | .cblk => 16
  | .kstr => s.operands.lenA.toNat
  | .ctrx => s.operands.lenA.toNat
  | .xdif => s.diffLength
  | .hamd => 0

/-- The state with another key. -/
def State.withKey (s : State) (k : Bytes16) : State := { s with operands := { s.operands with key := k } }

/-- The end of a run (`70_reset_and_hazards.md` R162). -/
def State.Final (s : State) : Prop :=
  s.master.program = [] ∧ s.busy = false ∧ s.busErrors = [] ∧ s.unwrittenRead = none

/-- The invariant of the machine. -/
structure State.Inv (s : State) : Prop where
  /-- The parameters are legal (`00_scope.md` R7). -/
  params_wf    : s.params.wf
  /-- Memory is in its canonical form. -/
  mem_wf       : s.mem.wf
  /-- Only bytes of the three buffers are held (`10_state.md` R33). -/
  mem_buffers  : ∀ c ∈ s.mem, inBuffers s.params.bufBytes c.1
  /-- ERR = 0 exactly when ERRCODE = 0 (`10_state.md` R43). -/
  err_iff      : s.status.err = false ↔ s.status.errcode = 0
  /-- ERRCODE holds no reserved code (`93_implementation_defined.md` U10). -/
  errcode_ok   : legalErrcode s.status.errcode
  /-- While a command is pending, DONE and ERR are 0 (`60_exceptions.md` R128). -/
  busy_clear   : s.busy = true → s.status.done = false ∧ s.status.err = false
  /-- With an `UnwrittenRead` recorded, a command is still pending: DEDUCED, since the spec says nothing of the latch
  there (log entry 6; unsafe for a claim on BUSY in such a state). -/
  fault_busy   : s.unwrittenRead ≠ none → s.busy = true
  /-- OUT_LEN is at most the capacity of OUT (`60_exceptions.md` R126). -/
  outLen_le    : s.outLen.toNat ≤ s.params.bufBytes
  /-- The bytes of OUT below OUT_LEN have been written (`10_state.md` R34). -/
  out_written  : ∀ k, k < s.outLen.toNat → s.bufByte .out k ≠ none
  /-- RESULT is at most `8 · BUF_BYTES` (`43_bit_difference.md` R114). -/
  result_le    : s.result.toNat ≤ 8 * s.params.bufBytes

end Sys2Proof.Machine
end

