-- ==== Sys2Proof/Certificates/Slice0/Obligations.lean ====
section
/-! DEFINITION. The statements for the provers, from the numbered rules of the spec. -/

open Sys2Proof Sys2Proof.Machine

/-! ### Encoding (`30_encoding.md`) -/

/-- Every command word is one of the five legal words, for the command it selects, or illegal for the reason the
rules give (R70 to R74). -/
def Obligations.DecodeOkIffEncodedCommand : Prop :=
  ∀ (hb : Bool) (w : Word),
    (∀ i, decode hb w = .ok i ↔ (i.wf hb = true ∧ w = encode i)) ∧
    (decode hb w = .error .upperBitsNotZero ↔ w.toNat / 256 ≠ 0) ∧
    (decode hb w = .error .reservedOp ↔ w.toNat / 256 = 0 ∧ (w.toNat % 256 = 0 ∨ 6 ≤ w.toNat % 256)) ∧
    (decode hb w = .error .noBitdiff ↔ hb = false ∧ (w = 0x00000004 ∨ w = 0x00000005))

/-- Decoding an encoded command that the instance has gives it back (R70, R75). -/
def Obligations.DecodeOfEncode : Prop :=
  ∀ (hb : Bool) (i : Instr), i.wf hb = true → decode hb (encode i) = .ok i

/-- The five words of the opcode map, written out, select their commands, and some illegal words none (R70 to R72). -/
def Obligations.OpcodeMapWordsDecode : Prop :=
  decode true 0x00000001 = .ok .cblk ∧ decode true 0x00000002 = .ok .kstr ∧ decode true 0x00000003 = .ok .ctrx ∧
  decode true 0x00000004 = .ok .xdif ∧ decode true 0x00000005 = .ok .hamd ∧
  decode true 0x00000101 = .error .upperBitsNotZero ∧ decode true 0x00000006 = .error .reservedOp ∧
  decode false 0x00000005 = .error .noBitdiff

/-! ### The engine's step (`10_state.md` R16, R38) -/

/-- With no fault recorded, a step in which the engine moves, by the environment's turn or because none is fixed (log
entry 2), executes the pending command: it is `exec` of what the word decodes to, with a fault of `exec` recorded
(log entry 6), or the error completion of an illegal word. -/
def Obligations.StepExecutesPendingCommand : Prop :=
  ∀ (s : State) (w : Word), s.pending = some w → s.unwrittenRead = none →
    (∀ i, decode s.params.hasBitdiff w = .ok i →
      (s.schedule = [] →
        (∀ t, exec i s = .next t → step s = .next t) ∧
        (∀ f, exec i s = .fault f → step s = .next { s with unwrittenRead := some f })) ∧
      (∀ r, s.schedule = .engine :: r →
        (∀ t, exec i { s with schedule := r } = .next t → step s = .next t) ∧
        (∀ f, exec i { s with schedule := r } = .fault f →
          step s = .next { s with schedule := r, unwrittenRead := some f })) ∧
      ((∃ t, exec i s = .next t) ∨ ∃ f, exec i s = .fault f)) ∧
    (∀ e, decode s.params.hasBitdiff w = .error e →
      (s.schedule = [] → step s = .next (errorCompletion s 6)) ∧
      (∀ r, s.schedule = .engine :: r → step s = .next (errorCompletion { s with schedule := r } 6)))

/-- A command word placed in the latch is run by the very next step: it is `exec`, with a fault of `exec` recorded (log
entries 1 and 6). -/
def Obligations.StepRunsFetchedWord : Prop :=
  ∀ (s : State) (w : Nat) (i : Instr), w < 2 ^ 32 →
    decode s.params.hasBitdiff (BitVec.ofNat 32 w) = .ok i →
    let u : State := { s with pending := some (BitVec.ofNat 32 w), unwrittenRead := none }
    (∀ t, exec i u = .next t → step (s.withFetchWord 32 w) = .next t) ∧
    (∀ f, exec i u = .fault f → step (s.withFetchWord 32 w) = .next { u with unwrittenRead := some f })

/-- The engine's step is enabled only while a command is pending (R16); with nothing pending and no fault recorded its
turn passes (log entry 2). -/
def Obligations.EngineIdleWithoutCommand : Prop :=
  ∀ (s : State) (r : List Turn), s.pending = none → s.unwrittenRead = none → s.schedule = .engine :: r →
    step s = .next { s with schedule := r }

/-- With no fault recorded, a step in which the host moves, by the environment's turn or because none is fixed and no
command is pending, is the host's step (log entry 2). -/
def Obligations.StepRunsHostOperation : Prop :=
  ∀ s : State, s.unwrittenRead = none →
    (∀ r, s.schedule = .host :: r → step s = .next (hostStep { s with schedule := r })) ∧
    (s.schedule = [] → s.pending = none → step s = .next (hostStep s))

/-- The engine checks a pending word in the order of R125: decode, key length, nonce length, message lengths; the first
check that fails is the one reported, and a command that passes all of them reports none: it succeeds, or the read of
an unwritten input byte is recorded and STATUS stays as it is (R41, R138). That the engine's step answers a next state
with the record is the model's deduction (log entry 6). -/
def Obligations.FirstFailedCheckIsReported : Prop :=
  ∀ (s : State) (w : Word), s.pending = some w →
    (∀ e, decode s.params.hasBitdiff w = .error e → engineStep s = .next (errorCompletion s 6)) ∧
    ∀ i, decode s.params.hasBitdiff w = .ok i →
      let badKey := (i = .kstr ∨ i = .ctrx) ∧ s.operands.keyLen ≠ 16
      let badNonce := (i = .cblk ∨ i = .kstr ∨ i = .ctrx) ∧ s.operands.nonceLen ≠ 16
      let badLength := ((i = .kstr ∨ i = .ctrx) ∧ s.params.bufBytes < s.operands.lenA.toNat) ∨
        ((i = .xdif ∨ i = .hamd) ∧ AnalyzerTooLong s)
      (badKey → engineStep s = .next (errorCompletion s 1)) ∧
      (¬ badKey → badNonce → engineStep s = .next (errorCompletion s 2)) ∧
      (¬ badKey → ¬ badNonce → badLength → engineStep s = .next (errorCompletion s 5)) ∧
      (¬ badKey → ¬ badNonce → ¬ badLength →
        ∃ t, engineStep s = .next t ∧
          (Succeeded t ∨ ∃ b k, t.unwrittenRead = some (.unwrittenRead b k) ∧ t.status = s.status))

/-- With an `UnwrittenRead` recorded every step but the reset event stops with it, and the reset event empties the record
(R146, R162; log entry 6). -/
def Obligations.OnlyResetFollowsUnwrittenRead : Prop :=
  ∀ (s : State) (f : Fault), s.unwrittenRead = some f → ¬ s.Final ∧
    (s.schedule.head? ≠ some .rstN → step s = .fault f) ∧
    (∀ r, s.schedule = .rstN :: r → ∃ t, step s = .next t ∧ t.unwrittenRead = none ∧ t.pending = none ∧
      t.status = { done := false, err := false, werr := false, errcode := 0 })

/-- A failed command changes nothing but STATUS and the latch, and a successful one completes and makes all of its
writes: those of OUT reach up to its length, from index 0, and HAMD's is RESULT (R131). -/
def Obligations.FailedCommandChangesOnlyStatus : Prop :=
  ∀ (i : Instr) (s t : State), exec i s = .next t →
    (t.status.err = true → t = errorCompletion s t.status.errcode ∧ t.status.errcode ≠ 0) ∧
    (t.status.err = false → Succeeded t ∧
      (i ≠ .hamd → t.outLen = BitVec.ofNat 32 (outBytes i s) ∧ ∀ k, k < outBytes i s → t.bufByte .out k ≠ none) ∧
      (i = .hamd → ∃ d, diffInput s = .ok d ∧ t.result = BitVec.ofNat 32 (popcountBytes d)))

/-- The frame of every command: what R76 does not list as written is unchanged. -/
def Obligations.CommandFrame : Prop :=
  ∀ (i : Instr) (s t : State), exec i s = .next t →
    SameOutsideCommand s t ∧ SameOutsideOut (outBytes i s) s t ∧ t.pending = none ∧ t.status.done = true ∧
    (i ≠ .hamd → t.result = s.result) ∧ (i = .hamd → t.outLen = s.outLen)

/-- `UnwrittenRead` comes only from a command that reads an input buffer, at an index below its checked length, and
names an unwritten byte (R41, R68, R125). -/
def Obligations.FaultNamesUnwrittenInputByte : Prop :=
  ∀ (i : Instr) (s : State) (b : Buffer) (k : Nat), exec i s = .fault (.unwrittenRead b k) →
    (i = .ctrx ∨ i = .xdif ∨ i = .hamd) ∧ s.bufByte b k = none ∧
    ((b = .inA ∧ k < s.operands.lenA.toNat ∧ s.operands.lenA.toNat ≤ s.params.bufBytes) ∨
     (b = .inB ∧ i ≠ .ctrx ∧ k < s.operands.lenB.toNat ∧ s.operands.lenB.toNat ≤ s.params.bufBytes))

/-! ### The commands (`40_counter_block.md` to `43_bit_difference.md`) -/

/-- CBLK: the error of R90, and otherwise OUT[0..15] is the big-endian form of the nonce's integer plus INDEX, mod
2^128, and OUT_LEN is 16. -/
def Obligations.CblkWritesCounterBlock : Prop :=
  ∀ s : State,
    (s.operands.nonceLen ≠ 16 → exec .cblk s = .next (errorCompletion s 2)) ∧
    (s.operands.nonceLen = 16 → ∃ t bs, exec .cblk s = .next t ∧ WroteOut s t bs ∧ bs.length = 16 ∧
      beInt bs = (beInt s.operands.nonce.toList + s.operands.index) % 2 ^ 128)

/-- With INDEX = 0, CBLK writes the nonce itself (R88). -/
def Obligations.CblkAtIndexZeroWritesNonce : Prop :=
  ∀ s : State, s.operands.nonceLen = 16 → s.operands.indexLo = 0 → s.operands.indexHi = 0 →
    ∃ t, exec .cblk s = .next t ∧ t.Holds .out s.operands.nonce.toList ∧ t.outLen = 16

/-- KSTR: the errors of R94 in their order, and otherwise byte `j` of OUT is byte `j mod 16` of `E` of the key and the
counter block of index `INDEX + j div 16`, for `j` below LEN_A, and OUT_LEN is LEN_A. -/
def Obligations.KstrWritesKeystream : Prop :=
  ∀ s : State,
    (s.operands.keyLen ≠ 16 → exec .kstr s = .next (errorCompletion s 1)) ∧
    (s.operands.keyLen = 16 → s.operands.nonceLen ≠ 16 → exec .kstr s = .next (errorCompletion s 2)) ∧
    (s.operands.keyLen = 16 → s.operands.nonceLen = 16 → s.params.bufBytes < s.operands.lenA.toNat →
      exec .kstr s = .next (errorCompletion s 5)) ∧
    (s.operands.keyLen = 16 → s.operands.nonceLen = 16 → s.operands.lenA.toNat ≤ s.params.bufBytes →
      ∃ t bs, exec .kstr s = .next t ∧ WroteOut s t bs ∧ bs.length = s.operands.lenA.toNat ∧
        ∀ (j : Nat) (h : j < bs.length) (cb : Bytes16),
          beInt cb.toList = (beInt s.operands.nonce.toList + (s.operands.index + j / 16)) % 2 ^ 128 →
          bs[j] = (Config.cipher s.operands.key cb)[j % 16])

/-- A shorter keystream is the first bytes of a longer one (R95); so of two KSTR with equal KEY, NONCE and INDEX the
shorter output is the first bytes of the longer, and with equal LEN_A they are equal (R96). -/
def Obligations.KstrOutputsArePrefixConsistent : Prop :=
  (∀ (E : BlockCipher) (k n : Bytes16) (i0 N M : Nat), N ≤ M →
    keystream E k n i0 N = (keystream E k n i0 M).take N) ∧
  ∀ s s' t t' : State, s.operands.key = s'.operands.key → s.operands.nonce = s'.operands.nonce →
    s.operands.index = s'.operands.index → s.operands.lenA.toNat ≤ s'.operands.lenA.toNat →
    exec .kstr s = .next t → exec .kstr s' = .next t' → t.status.err = false → t'.status.err = false →
    ∀ j, j < s.operands.lenA.toNat → t.bufByte .out j = t'.bufByte .out j

/-- Chunking: a keystream is its first `16·q` bytes and then the keystream from `q` blocks further on (R98); so KSTR from
INDEX + q writes what KSTR from INDEX writes from byte `16·q` on. -/
def Obligations.KstrChunksJoin : Prop :=
  (∀ (E : BlockCipher) (k n : Bytes16) (i0 q L : Nat),
    keystream E k n i0 (16 * q + L) = keystream E k n i0 (16 * q) ++ keystream E k n (i0 + q) L) ∧
  ∀ (s s' t t' : State) (q : Nat), s.operands.key = s'.operands.key → s.operands.nonce = s'.operands.nonce →
    s'.operands.index = s.operands.index + q →
    16 * q + s'.operands.lenA.toNat = s.operands.lenA.toNat →
    exec .kstr s = .next t → exec .kstr s' = .next t' → t.status.err = false → t'.status.err = false →
    ∀ j, j < s'.operands.lenA.toNat → t'.bufByte .out j = t.bufByte .out (16 * q + j)

/-- CTRX: the errors of R101 in their order, the fault at the first unwritten message byte, and otherwise OUT is
the message XORed with the keystream, and OUT_LEN is LEN_A. -/
def Obligations.CtrxXorsMessageWithKeystream : Prop :=
  ∀ s : State,
    (s.operands.keyLen ≠ 16 → exec .ctrx s = .next (errorCompletion s 1)) ∧
    (s.operands.keyLen = 16 → s.operands.nonceLen ≠ 16 → exec .ctrx s = .next (errorCompletion s 2)) ∧
    (s.operands.keyLen = 16 → s.operands.nonceLen = 16 → s.params.bufBytes < s.operands.lenA.toNat →
      exec .ctrx s = .next (errorCompletion s 5)) ∧
    (s.operands.keyLen = 16 → s.operands.nonceLen = 16 → s.operands.lenA.toNat ≤ s.params.bufBytes →
      (∀ k, k < s.operands.lenA.toNat → (∀ j, j < k → s.bufByte .inA j ≠ none) → s.bufByte .inA k = none →
        exec .ctrx s = .fault (.unwrittenRead .inA k)) ∧
      (∀ data, s.OperandA data → ∃ t bs, exec .ctrx s = .next t ∧ WroteOut s t bs ∧ bs.length = data.length ∧
        ∀ (j : Nat) (h : j < bs.length) (h' : j < data.length) (cb : Bytes16),
          beInt cb.toList = (beInt s.operands.nonce.toList + (s.operands.index + j / 16)) % 2 ^ 128 →
          bs[j] = data[j] ^^^ (Config.cipher s.operands.key cb)[j % 16]))

/-- Involution: a second CTRX on the output of a first, with the same KEY, NONCE, INDEX and LEN_A, gives the message
back (R103). -/
def Obligations.CtrxTwiceRestoresMessage : Prop :=
  ∀ (s t s' : State) (data c : List Byte), s.OperandA data → exec .ctrx s = .next t → t.status.err = false →
    c.length = data.length → t.Holds .out c →
    s'.params = s.params → s'.operands = s.operands → s'.Holds .inA c →
    ∃ t', exec .ctrx s' = .next t' ∧ Succeeded t' ∧ t'.Holds .out data

/-- Bit-position locality: two messages under the same KEY, NONCE and INDEX differ in the output exactly where they
differ in the input, bit for bit (R105). -/
def Obligations.CtrxKeepsBitDifferences : Prop :=
  ∀ (s s' t t' : State) (data data' : List Byte), s.OperandA data → s'.OperandA data' →
    s'.operands.key = s.operands.key → s'.operands.nonce = s.operands.nonce →
    s'.operands.index = s.operands.index →
    exec .ctrx s = .next t → exec .ctrx s' = .next t' → t.status.err = false → t'.status.err = false →
    ∀ (j : Nat) (h : j < data.length) (h' : j < data'.length),
      ∃ x x', t.bufByte .out j = some x ∧ t'.bufByte .out j = some x' ∧ x ^^^ x' = data[j] ^^^ data'[j]

/-- XDIF: the errors of R108, the fault at the first unwritten byte its loop reads, and otherwise OUT is the
right-aligned per-byte XOR of the operands, and OUT_LEN the greater length. -/
def Obligations.XdifWritesByteDifference : Prop :=
  ∀ s : State,
    (s.params.hasBitdiff = false → exec .xdif s = .next (errorCompletion s 6)) ∧
    (s.params.hasBitdiff = true → AnalyzerTooLong s → exec .xdif s = .next (errorCompletion s 5)) ∧
    (s.params.hasBitdiff = true → ¬ AnalyzerTooLong s →
      (∀ f, AnalyzerFault s f → exec .xdif s = .fault f) ∧
      (∀ a b, s.OperandA a → s.OperandB b → ∃ t bs, exec .xdif s = .next t ∧ WroteOut s t bs ∧
        bs.length = max a.length b.length ∧
        ∀ (k : Nat) (h : k < bs.length), bs[k] = alignedByte a bs.length k ^^^ alignedByte b bs.length k))

/-- The XDIF result, read as a big-endian integer, is the XOR of the operands' integers (R109). -/
def Obligations.XdifResultIsIntegerXor : Prop :=
  ∀ (s : State) (a b : List Byte), s.params.hasBitdiff = true → ¬ AnalyzerTooLong s → s.OperandA a → s.OperandB b →
    ∃ t bs, exec .xdif s = .next t ∧ WroteOut s t bs ∧ bs.length = s.diffLength ∧
      beInt bs = beInt a ^^^ beInt b

/-- HAMD: the errors of R110, the fault at the first unwritten byte its loop reads, and otherwise RESULT is the sum of
the popcounts of the right-aligned per-byte XOR; OUT and OUT_LEN are unchanged. -/
def Obligations.HamdSumsBytePopcounts : Prop :=
  ∀ s : State, s.params.wf →
    (s.params.hasBitdiff = false → exec .hamd s = .next (errorCompletion s 6)) ∧
    (s.params.hasBitdiff = true → AnalyzerTooLong s → exec .hamd s = .next (errorCompletion s 5)) ∧
    (s.params.hasBitdiff = true → ¬ AnalyzerTooLong s →
      (∀ f, AnalyzerFault s f → exec .hamd s = .fault f) ∧
      (∀ a b, s.OperandA a → s.OperandB b → ∃ t, exec .hamd s = .next t ∧
        WroteResult s t ((List.range s.diffLength).map fun k =>
          popcount 8 (alignedByte a s.diffLength k ^^^ alignedByte b s.diffLength k).toNat).sum))

/-- RESULT is the number of bits set in the XOR of the operands' big-endian integers (R111), and it is at most
`8 · BUF_BYTES` (R114). -/
def Obligations.HamdCountsBitsOfIntegerXor : Prop :=
  ∀ (s : State) (a b : List Byte), s.params.wf → s.params.hasBitdiff = true → ¬ AnalyzerTooLong s →
    s.OperandA a → s.OperandB b →
    ∃ t, exec .hamd s = .next t ∧ t.result.toNat = popcount (8 * s.diffLength) (beInt a ^^^ beInt b) ∧
      t.result.toNat ≤ 8 * s.params.bufBytes

/-- Swapping the operands leaves RESULT unchanged, and equal operands give 0 (R112). -/
def Obligations.HamdIsSymmetricAndZeroOnEqual : Prop :=
  ∀ (s s' t t' : State) (a b : List Byte), s.OperandA a → s.OperandB b → s'.OperandA b → s'.OperandB a →
    exec .hamd s = .next t → exec .hamd s' = .next t' → t.status.err = false → t'.status.err = false →
    t.result = t'.result ∧ (a = b → t.result = 0)

/-- Leading zero bytes of either operand do not change RESULT (R113). -/
def Obligations.HamdIgnoresLeadingZeroBytes : Prop :=
  ∀ (s s' t t' : State) (a b : List Byte) (y z : Nat), s.OperandA a → s.OperandB b →
    s'.OperandA (List.replicate y 0 ++ a) → s'.OperandB (List.replicate z 0 ++ b) →
    exec .hamd s = .next t → exec .hamd s' = .next t' → t.status.err = false → t'.status.err = false →
    t.result = t'.result

/-- Malleability: with C and C' of one length under one KEY, NONCE and INDEX, and P and P' what CTRX gives of them, HAMD of
P and P' equals HAMD of C and C' (R116). -/
def Obligations.HamdOfPlaintextsEqualsHamdOfCiphertexts : Prop :=
  ∀ (s s' t t' u v u' v' : State) (c c' p p' : List Byte),
    c.length = c'.length → p.length = c.length → p'.length = c'.length →
    s.OperandA c → s'.OperandA c' → s'.operands.key = s.operands.key → s'.operands.nonce = s.operands.nonce →
    s'.operands.index = s.operands.index →
    exec .ctrx s = .next t → exec .ctrx s' = .next t' → t.status.err = false → t'.status.err = false →
    t.Holds .out p → t'.Holds .out p' →
    u.OperandA c → u.OperandB c' → exec .hamd u = .next v → v.status.err = false →
    u'.OperandA p → u'.OperandB p' → exec .hamd u' = .next v' → v'.status.err = false →
    v'.result = v.result

/-- The corruptor on CTRGEN: with the ciphertext in IN_A and the mask's bytes in IN_B, the trailing bytes of XDIF's
output are the corrupted ciphertext (R120). -/
def Obligations.XdifComputesCorruptor : Prop :=
  ∀ (s : State) (c : List Byte) (m : Nat), s.params.hasBitdiff = true → ¬ AnalyzerTooLong s →
    s.OperandA c → s.OperandB (maskBytes m) →
    ∃ t, exec .xdif s = .next t ∧ Succeeded t ∧ t.outLen.toNat = max c.length (maskBytes m).length ∧
      (corrupt c m).length = c.length ∧
      ∀ (p : Nat) (h : p < (corrupt c m).length),
        t.bufByte .out (s.diffLength - c.length + p) = some (corrupt c m)[p]

/-- The driver's check passes for every cipher, key, nonce, plaintext and mask (R116, R121, R122). -/
def Obligations.DriverCheckNeverFails : Prop :=
  ∀ (E : BlockCipher) (k n : Bytes16) (plaintext : List Byte) (m : Nat), driverCheck E k n plaintext m = .ok ()

/-- Byte `k` of a 16-byte value is at bits `[127-8k : 120-8k]` of the cipher port (R18). -/
def Obligations.CipherPortByteOrder : Prop :=
  ∀ (b : Bytes16) (k : Nat) (h : k < 16),
    (portVector b).extractLsb' (120 - 8 * k) 8 = b[k] ∧ (portVector b).toNat = beInt b.toList

/-! ### Host writes (`20_memory.md` R57, R58) -/

/-- A CMD write while BUSY = 0 latches the word and clears DONE, ERR and ERRCODE; WERR is kept (R28, R128). -/
def Obligations.CmdWriteAcceptsCommand : Prop :=
  ∀ (s : State) (w : Word), s.pending = none →
    busEffect (writeAt 0x00010 w) s =
      { s with pending := some w, status := { s.status with done := false, err := false, errcode := 0 } }

/-- While BUSY = 1, a write to CMD, to an operand register, or to a KEY, NONCE, IN_A or IN_B word sets WERR and
changes nothing else (R134, R150). -/
def Obligations.BusyWritesAreDropped : Prop :=
  ∀ (s : State) (off : Offset) (w : Word), s.params.wf → s.busy = true → off.toNat % 4 = 0 →
    ((0x10 ≤ off.toNat ∧ off.toNat < 0x2C) ∨ (0x40 ≤ off.toNat ∧ off.toNat < 0x60) ∨
      (0x10000 ≤ off.toNat ∧ off.toNat < 0x10000 + s.params.bufBytes) ∨
      (0x20000 ≤ off.toNat ∧ off.toNat < 0x20000 + s.params.bufBytes)) →
    busEffect (writeAt off w) s = { s with status := { s.status with werr := true } }

/-- Writes to CTRL and STATUS take effect whatever BUSY is (R26, R27). -/
def Obligations.CtrlAndStatusWritesTakeEffect : Prop :=
  ∀ (s : State) (w : Word),
    busEffect (writeAt 0x00008 w) s = { s with ie := w.getLsbD 0 } ∧
    (let t := busEffect (writeAt 0x0000C w) s
     t = { s with status := t.status } ∧
     t.status.done = (if w.getLsbD 1 then false else s.status.done) ∧
     t.status.err = (if w.getLsbD 2 then false else s.status.err) ∧
     t.status.errcode = (if w.getLsbD 2 then 0 else s.status.errcode) ∧
     t.status.werr = (if w.getLsbD 3 then false else s.status.werr))

/-- A write to ID, CAPS, OUT_LEN, RESULT or OUT is ignored whatever BUSY is (R57). -/
def Obligations.ReadOnlyWritesAreIgnored : Prop :=
  ∀ (s : State) (off : Offset) (w : Word), s.params.wf → off.toNat % 4 = 0 →
    (off = 0x00000 ∨ off = 0x00004 ∨ off = 0x0002C ∨ off = 0x00030 ∨
      (0x30000 ≤ off.toNat ∧ off.toNat < 0x30000 + s.params.bufBytes)) →
    busEffect (writeAt off w) s = s

/-- While BUSY = 0, a word written to IN_A or IN_B sets its four bytes by the lanes of R58 and nothing else, and reads
back (R57 to R59). -/
def Obligations.BufferWriteSetsLanesAndReadsBack : Prop :=
  ∀ (s : State) (b : Buffer) (k : Nat) (w : Word), s.params.wf → s.busy = false → (b = .inA ∨ b = .inB) →
    k % 4 = 0 → k < s.params.bufBytes →
    let off : Offset := BitVec.ofNat 18 (b.base + k)
    let t := busEffect (writeAt off w) s
    t = { s with mem := t.mem } ∧
    t.bufByte b k = some (w.extractLsb' 0 8) ∧ t.bufByte b (k + 1) = some (w.extractLsb' 8 8) ∧
    t.bufByte b (k + 2) = some (w.extractLsb' 16 8) ∧ t.bufByte b (k + 3) = some (w.extractLsb' 24 8) ∧
    (∀ a, ¬ (b.base + k ≤ a ∧ a < b.base + k + 4) → t.mem.read? a = s.mem.read? a) ∧
    busResponse (readAt off) t = { data := w, buserr := false }

/-- While BUSY = 0, a written NONCE word holds its bytes by the lanes of R58 and reads back; a written KEY word holds
its bytes likewise and reads as 0 (R36, R37, R58). -/
def Obligations.KeyAndNonceWordsByLanes : Prop :=
  ∀ (s : State) (j : Fin 4) (w : Word), s.busy = false →
    (let t := busEffect (writeAt (BitVec.ofNat 18 (0x50 + 4 * j)) w) s
     t = { s with operands := { s.operands with nonce := t.operands.nonce } } ∧
     (∀ i : Fin 4, t.operands.nonce[4 * j.val + i.val] = w.extractLsb' (8 * i) 8) ∧
     (∀ i : Fin 16, i.val / 4 ≠ j.val → t.operands.nonce[i] = s.operands.nonce[i]) ∧
     busResponse (readAt (BitVec.ofNat 18 (0x50 + 4 * j))) t = { data := w, buserr := false }) ∧
    (let t := busEffect (writeAt (BitVec.ofNat 18 (0x40 + 4 * j)) w) s
     t = { s with operands := { s.operands with key := t.operands.key } } ∧
     (∀ i : Fin 4, t.operands.key[4 * j.val + i.val] = w.extractLsb' (8 * i) 8) ∧
     (∀ i : Fin 16, i.val / 4 ≠ j.val → t.operands.key[i] = s.operands.key[i]) ∧
     busResponse (readAt (BitVec.ofNat 18 (0x40 + 4 * j))) t = { data := 0, buserr := false })

/-- While BUSY = 0, the numeric operand registers take the written value, KEY_LEN and NONCE_LEN its bits [7:0] only,
change nothing else, and read back (R29 to R32). -/
def Obligations.OperandRegistersReadBack : Prop :=
  ∀ (s : State) (w : Word), s.busy = false →
    (let t := busEffect (writeAt 0x00014 w) s
     t = { s with operands := { s.operands with keyLen := w.setWidth 8 } } ∧
     (busResponse (readAt 0x00014) t).data = w &&& 0xFF) ∧
    (let t := busEffect (writeAt 0x00018 w) s
     t = { s with operands := { s.operands with nonceLen := w.setWidth 8 } } ∧
     (busResponse (readAt 0x00018) t).data = w &&& 0xFF) ∧
    (let t := busEffect (writeAt 0x0001C w) s
     t = { s with operands := { s.operands with lenA := w } } ∧ (busResponse (readAt 0x0001C) t).data = w) ∧
    (let t := busEffect (writeAt 0x00020 w) s
     t = { s with operands := { s.operands with lenB := w } } ∧ (busResponse (readAt 0x00020) t).data = w) ∧
    (let t := busEffect (writeAt 0x00024 w) s
     t = { s with operands := { s.operands with indexLo := w } } ∧
     (busResponse (readAt 0x00024) t).data = w ∧ t.operands.index % 2 ^ 32 = w.toNat) ∧
    (let t := busEffect (writeAt 0x00028 w) s
     t = { s with operands := { s.operands with indexHi := w } } ∧
     (busResponse (readAt 0x00028) t).data = w ∧ t.operands.index / 2 ^ 32 = w.toNat)

/-! ### Host reads and bus errors (`20_memory.md` R50 to R60) -/

/-- An access gets `BUSERR` exactly when it is not 4 bytes wide, or not 4-aligned, or at an offset the map does not
list; then a read's data are 0, and it changes nothing but the fault record (R50, R51, R60). -/
def Obligations.BusErrorExactlyOffTheMap : Prop :=
  ∀ (t : Transfer) (s : State), s.params.wf →
    ((busResponse t s).buserr = true ↔
      ¬ (t.size = .four ∧ t.off.toNat % 4 = 0 ∧ Listed s.params.bufBytes t.off.toNat)) ∧
    ((busResponse t s).buserr = true →
      (t.dir = .read → (busResponse t s).data = 0) ∧ busEffect t s = { s with busErrors := t.off :: s.busErrors })

/-- A recorded bus error stays recorded in every step but the reset event (R60, R146). -/
def Obligations.BusErrorRecordsAreSticky : Prop :=
  ∀ s t : State, step s = .next t → s.schedule.head? ≠ some .rstN → ∀ off ∈ s.busErrors, off ∈ t.busErrors

/-- A host read that gets no bus error changes no register, buffer or flag; only the model's own counter of draws
moves (R54; log entry 5). -/
def Obligations.ReadsHaveNoSideEffect : Prop :=
  ∀ (t : Transfer) (s : State), t.dir = .read → (busResponse t s).buserr = false →
    ∃ d, busEffect t s = { s with draws := d } ∧ s.draws ≤ d

/-- The fields of STATUS stand at their bits and every other bit reads as 0 (R27, R38). -/
def Obligations.StatusWordLayout : Prop :=
  ∀ s : State, let w := (busResponse (readAt 0x0000C) s).data
    (busResponse (readAt 0x0000C) s).buserr = false ∧
    w.getLsbD 0 = s.pending.isSome ∧ w.getLsbD 1 = s.status.done ∧ w.getLsbD 2 = s.status.err ∧
    w.getLsbD 3 = s.status.werr ∧ w.extractLsb' 8 4 = s.status.errcode ∧
    w.extractLsb' 4 4 = 0 ∧ w.extractLsb' 12 20 = 0

/-- ID and CAPS read as their constants, and writes to them are ignored (R24, R25). -/
def Obligations.IdAndCapsReadAsConstants : Prop :=
  ∀ (s : State) (v : Word), s.params.wf →
    busResponse (readAt 0x00000) s = { data := 0x43545247, buserr := false } ∧
    busEffect (writeAt 0x00000 v) s = s ∧ busEffect (writeAt 0x00004 v) s = s ∧
    (let w := (busResponse (readAt 0x00004) s).data
     (w.extractLsb' 0 24).toNat = s.params.bufBytes ∧ w.getLsbD 24 = s.params.hasBitdiff ∧ w.extractLsb' 25 7 = 0)

/-- CTRL reads as IE in bit 0 and zeros, CMD as 0, and while BUSY = 0 OUT_LEN and RESULT read as they stand (R26, R28,
R34, R35, R56). -/
def Obligations.CtrlCmdAndIdleResultReads : Prop :=
  ∀ s : State,
    ((busResponse (readAt 0x00008) s).data.toNat = if s.ie then 1 else 0) ∧
    (busResponse (readAt 0x00010) s).data = 0 ∧
    (s.busy = false → (busResponse (readAt 0x0002C) s).data = s.outLen ∧
      (busResponse (readAt 0x00030) s).data = s.result)

/-- Whatever BUSY is, KEY_LEN, NONCE_LEN, LEN_A, LEN_B, INDEX_LO, INDEX_HI and the NONCE words read as their current
values, and the KEY words as 0 (R153, R56, R36). -/
def Obligations.OperandReadsGiveCurrentValues : Prop :=
  ∀ s : State,
    (busResponse (readAt 0x00014) s).data.toNat = s.operands.keyLen.toNat ∧
    (busResponse (readAt 0x00018) s).data.toNat = s.operands.nonceLen.toNat ∧
    (busResponse (readAt 0x0001C) s).data = s.operands.lenA ∧
    (busResponse (readAt 0x00020) s).data = s.operands.lenB ∧
    (busResponse (readAt 0x00024) s).data = s.operands.indexLo ∧
    (busResponse (readAt 0x00028) s).data = s.operands.indexHi ∧
    ∀ j : Fin 4,
      (busResponse (readAt (BitVec.ofNat 18 (0x40 + 4 * j))) s).data = 0 ∧
      ∀ i : Fin 4, (busResponse (readAt (BitVec.ofNat 18 (0x50 + 4 * j))) s).data.extractLsb' (8 * i) 8 =
        s.operands.nonce[4 * j.val + i.val]

/-- While BUSY = 1, a read of OUT_LEN, RESULT or an OUT word returns the free draw of the counter's number, and the
counter moves past it; what the draw is, nothing says (R153; log entry 5). -/
def Obligations.BusyResultReadsAreFreeDraws : Prop :=
  ∀ (s : State) (off : Offset), s.params.wf → s.busy = true → off.toNat % 4 = 0 →
    (off = 0x0002C ∨ off = 0x00030 ∨ (0x30000 ≤ off.toNat ∧ off.toNat < 0x30000 + s.params.bufBytes)) →
    busResponse (readAt off) s = { data := Config.any32 s.draws, buserr := false } ∧
    s.draws < (busEffect (readAt off) s).draws

/-- A host read of an IN_A or IN_B word at any time, and of an OUT word while BUSY = 0, gives each written byte in its
lane and a draw for each unwritten one, and moves the counter of draws past the numbers used; it is never a fault (R41,
R56, R58, R151, R153; log entry 5). -/
def Obligations.HostReadsGiveWrittenBytes : Prop :=
  ∀ (s : State) (b : Buffer) (k : Nat), s.params.wf → (b = .out → s.busy = false) → k % 4 = 0 → k < s.params.bufBytes →
    let r := busResponse (readAt (BitVec.ofNat 18 (b.base + k))) s
    r.buserr = false ∧
    (∀ i : Fin 4, (∀ v, s.bufByte b (k + i) = some v → r.data.extractLsb' (8 * i) 8 = v) ∧
      (s.bufByte b (k + i) = none → r.data.extractLsb' (8 * i) 8 = Config.any8 (s.draws + i))) ∧
    s.draws + 4 ≤ (busEffect (readAt (BitVec.ofNat 18 (b.base + k))) s).draws

/-- No host read depends on KEY, and neither does a command that does not use it: the key cannot be read back
(R36, R140). -/
def Obligations.KeyCannotBeReadBack : Prop :=
  ∀ (s : State) (k : Bytes16),
    (∀ t : Transfer, busResponse t (s.withKey k) = busResponse t s) ∧
    (∀ i : Instr, i = .cblk ∨ i = .xdif ∨ i = .hamd →
      (∀ t, exec i s = .next t → exec i (s.withKey k) = .next (t.withKey k)) ∧
      (∀ f, exec i s = .fault f → exec i (s.withKey k) = .fault f))

/-! ### The interrupt (`60_exceptions.md` R135, R136) -/

/-- `irq` is 1 exactly when IE = 1 and DONE = 1: a CTRL write enables or masks by its bit 0 at once and leaves DONE, a
STATUS write with bit 1 set and the acceptance of a command clear it, and a completion asserts it when enabled (R135,
R136). -/
def Obligations.InterruptFollowsDoneAndEnable : Prop :=
  ∀ s : State,
    (s.irq = true ↔ s.ie = true ∧ s.status.done = true) ∧
    (∀ w, (busEffect (writeAt 0x00008 w) s).irq = (w.getLsbD 0 && s.status.done) ∧
      (busEffect (writeAt 0x00008 w) s).status.done = s.status.done) ∧
    (∀ w, (busEffect (writeAt 0x0000C w) s).irq = (s.irq && !w.getLsbD 1) ∧
      (busEffect (writeAt 0x0000C w) s).ie = s.ie) ∧
    (∀ w, s.busy = false → (busEffect (writeAt 0x00010 w) s).irq = false) ∧
    (∀ i t, exec i s = .next t → t.irq = s.ie)

/-! ### The whole machine -/

/-- The invariant holds after reset, whatever the legal parameters; its clause on a recorded `UnwrittenRead` is the
model's deduction (log entry 6). -/
def Obligations.InvariantHoldsAtReset : Prop :=
  State.reset.Inv ∧ ∀ p : Params, p.wf → (State.resetWith p).Inv

/-- Every step of the machine, of the host, of the engine or the reset event, keeps the invariant. Its clause that a
command is pending while an `UnwrittenRead` is recorded is the model's deduction, and no rule of the spec says it of the
hardware (log entry 6). -/
def Obligations.EveryStepKeepsInvariant : Prop :=
  ∀ s t : State, s.Inv → step s = .next t → t.Inv

/-- While a command is pending, no step but the reset event changes an operand register or an input buffer byte
(R152). -/
def Obligations.OperandsAreStableWhileBusy : Prop :=
  ∀ s t : State, s.busy = true → s.schedule.head? ≠ some .rstN → step s = .next t →
    t.operands = s.operands ∧
    ∀ k, k < 0x10000 → t.bufByte .inA k = s.bufByte .inA k ∧ t.bufByte .inB k = s.bufByte .inB k

/-- While no command is pending, no step but the reset event changes OUT, OUT_LEN or RESULT (R62). -/
def Obligations.ResultsAreStableWhileIdle : Prop :=
  ∀ s t : State, s.params.wf → s.busy = false → s.schedule.head? ≠ some .rstN → step s = .next t →
    t.outLen = s.outLen ∧ t.result = s.result ∧ ∀ k, t.bufByte .out k = s.bufByte .out k

/-- The reset event gives the reset state of the instance, also while a command is pending, and then `irq` is 0 (R146,
R147); the host, the environment's turns and the counter of draws stay (log entry 3). -/
def Obligations.ResetEventAbandonsCommand : Prop :=
  ∀ (s : State) (r : List Turn), s.schedule = .rstN :: r →
    step s = .next { State.resetWith s.params with master := s.master, schedule := r, draws := s.draws } ∧
    (State.resetWith s.params).irq = false

/-- What reset leaves: every register at its value of R23, nothing pending, every buffer byte unwritten, no fault
recorded (R42, R146). -/
def Obligations.ResetLeavesListedValues : Prop :=
  ∀ p : Params, let s := State.resetWith p
    s.params = p ∧ s.ie = false ∧ s.status = { done := false, err := false, werr := false, errcode := 0 } ∧
    s.pending = none ∧
    s.operands = { keyLen := 0, nonceLen := 0, lenA := 0, lenB := 0, indexLo := 0, indexHi := 0,
                   key := zeros16, nonce := zeros16 } ∧
    s.outLen = 0 ∧ s.result = 0 ∧ (∀ b k, s.bufByte b k = none) ∧ s.busErrors = [] ∧
    s.unwrittenRead = none ∧ s.irq = false

/-- An accepted command completes: without a reset event among the turns that are fixed, the engine's turn comes
after at most as many steps as there are turns, and its step ends the command or records its fault (R158; log entries 2 and 6). -/
def Obligations.PendingCommandCompletes : Prop :=
  ∀ s : State, s.busy = true → s.unwrittenRead = none → .rstN ∉ s.schedule →
    ∃ k u, k ≤ s.schedule.length ∧ StepsIn k s u ∧ u.pending = s.pending ∧
      ∃ t, step u = .next t ∧ (t.busy = false ∨ t.unwrittenRead ≠ none)

/-! ### The host agent (`30_encoding.md` R78 to R80) -/

/-- `poll` reads STATUS and stays next in the program exactly while the word read has bit 0 set, that is while BUSY = 1
(R78). -/
def Obligations.PollRepeatsWhileBusy : Prop :=
  ∀ (s : State) (rest : List HostOp), s.master.program = .poll :: rest →
    (hostStep s).master.program = (if s.busy then .poll :: rest else rest)

/-- A host step with an operation left makes exactly the one access of that operation (R78), and records it with its
response; to the device it is that access and nothing else (R61, R80). The operation leaves the program, but for a
`poll`, whatever a check of it says (log entry 9). -/
def Obligations.HostStepIsOneRecordedAccess : Prop :=
  ∀ (s : State) (op : HostOp) (rest : List HostOp), s.master.program = op :: rest →
    ∃ x : Transaction,
      (∀ t, op = .xfer t → x.xfer = t) ∧
      (∀ off imm, op = .rdx off imm → x.xfer = readAt off) ∧
      (∀ off imm mask, op = .rdm off imm mask → x.xfer = readAt off) ∧
      (op = .poll → x.xfer = readAt 0x0000C) ∧
      x.resp = busResponse x.xfer s ∧
      (hostStep s).master.trace = x :: s.master.trace ∧
      hostStep s = { busEffect x.xfer s with master := (hostStep s).master } ∧
      (op ≠ .poll → (hostStep s).master.program = rest)

/-- The test fails at a `rdx` whose word differs from its constant and at a `rdm` whose word under the mask does, stays
failed, and fails at no other operation (R78). -/
def Obligations.HarnessChecksFailOnMismatch : Prop :=
  ∀ (s : State) (op : HostOp) (rest : List HostOp), s.master.program = op :: rest →
    ((hostStep s).master.testFailed = true ↔
      s.master.testFailed = true ∨
      (∃ off imm, op = .rdx off imm ∧ (busResponse (readAt off) s).data ≠ imm) ∨
      (∃ off imm mask, op = .rdm off imm mask ∧ (busResponse (readAt off) s).data &&& mask ≠ imm))

/-- Running the writes of `ldkey` and `ldnonce` on an idle device loads the 16 bytes into KEY and NONCE (R79). -/
def Obligations.LdkeyAndLdnonceLoadTheirBytes : Prop :=
  ∀ (s : State) (v : Bytes16), s.busy = false →
    ((ldkey v).foldl (fun s op => hostOp op [] s) s).operands = { s.operands with key := v } ∧
    ((ldnonce v).foldl (fun s op => hostOp op [] s) s).operands = { s.operands with nonce := v }
end

