-- ==== Sys2Proof/Laws/State.lean ====
section
/-! SUPPORT. What each named update of State does to each field, one lemma a field. -/

namespace Sys2Proof.Machine

open Sys2Proof

variable (s : State)

/-! ### `State.accept` -/

@[simp] theorem State.accept_params (w : Word) : (s.accept w).params = s.params := rfl
@[simp] theorem State.accept_ie (w : Word) : (s.accept w).ie = s.ie := rfl
@[simp] theorem State.accept_status (w : Word) : (s.accept w).status = s.status.accepted := rfl
@[simp] theorem State.accept_pending (w : Word) : (s.accept w).pending = some w := rfl
@[simp] theorem State.accept_operands (w : Word) : (s.accept w).operands = s.operands := rfl
@[simp] theorem State.accept_outLen (w : Word) : (s.accept w).outLen = s.outLen := rfl
@[simp] theorem State.accept_result (w : Word) : (s.accept w).result = s.result := rfl
@[simp] theorem State.accept_mem (w : Word) : (s.accept w).mem = s.mem := rfl
@[simp] theorem State.accept_busErrors (w : Word) : (s.accept w).busErrors = s.busErrors := rfl
@[simp] theorem State.accept_unwrittenRead (w : Word) : (s.accept w).unwrittenRead = s.unwrittenRead := rfl
@[simp] theorem State.accept_master (w : Word) : (s.accept w).master = s.master := rfl
@[simp] theorem State.accept_schedule (w : Word) : (s.accept w).schedule = s.schedule := rfl
@[simp] theorem State.accept_draws (w : Word) : (s.accept w).draws = s.draws := rfl

/-! ### `State.complete` -/

@[simp] theorem State.complete_params : s.complete.params = s.params := rfl
@[simp] theorem State.complete_ie : s.complete.ie = s.ie := rfl
@[simp] theorem State.complete_status : s.complete.status = s.status.succeeded := rfl
@[simp] theorem State.complete_pending : s.complete.pending = none := rfl
@[simp] theorem State.complete_operands : s.complete.operands = s.operands := rfl
@[simp] theorem State.complete_outLen : s.complete.outLen = s.outLen := rfl
@[simp] theorem State.complete_result : s.complete.result = s.result := rfl
@[simp] theorem State.complete_mem : s.complete.mem = s.mem := rfl
@[simp] theorem State.complete_busErrors : s.complete.busErrors = s.busErrors := rfl
@[simp] theorem State.complete_unwrittenRead : s.complete.unwrittenRead = s.unwrittenRead := rfl
@[simp] theorem State.complete_master : s.complete.master = s.master := rfl
@[simp] theorem State.complete_schedule : s.complete.schedule = s.schedule := rfl
@[simp] theorem State.complete_draws : s.complete.draws = s.draws := rfl

/-! ### `State.raiseCmdError` -/

@[simp] theorem State.raiseCmdError_params (c : ErrCode) : (s.raiseCmdError c).params = s.params := rfl
@[simp] theorem State.raiseCmdError_ie (c : ErrCode) : (s.raiseCmdError c).ie = s.ie := rfl
@[simp] theorem State.raiseCmdError_status (c : ErrCode) : (s.raiseCmdError c).status = s.status.failed c := rfl
@[simp] theorem State.raiseCmdError_pending (c : ErrCode) : (s.raiseCmdError c).pending = none := rfl
@[simp] theorem State.raiseCmdError_operands (c : ErrCode) : (s.raiseCmdError c).operands = s.operands := rfl
@[simp] theorem State.raiseCmdError_outLen (c : ErrCode) : (s.raiseCmdError c).outLen = s.outLen := rfl
@[simp] theorem State.raiseCmdError_result (c : ErrCode) : (s.raiseCmdError c).result = s.result := rfl
@[simp] theorem State.raiseCmdError_mem (c : ErrCode) : (s.raiseCmdError c).mem = s.mem := rfl
@[simp] theorem State.raiseCmdError_busErrors (c : ErrCode) : (s.raiseCmdError c).busErrors = s.busErrors := rfl
@[simp] theorem State.raiseCmdError_unwrittenRead (c : ErrCode) : (s.raiseCmdError c).unwrittenRead = s.unwrittenRead := rfl
@[simp] theorem State.raiseCmdError_master (c : ErrCode) : (s.raiseCmdError c).master = s.master := rfl
@[simp] theorem State.raiseCmdError_schedule (c : ErrCode) : (s.raiseCmdError c).schedule = s.schedule := rfl
@[simp] theorem State.raiseCmdError_draws (c : ErrCode) : (s.raiseCmdError c).draws = s.draws := rfl

/-! ### `State.writeOut` -/

@[simp] theorem State.writeOut_params (bs : List Byte) : (s.writeOut bs).params = s.params := rfl
@[simp] theorem State.writeOut_ie (bs : List Byte) : (s.writeOut bs).ie = s.ie := rfl
@[simp] theorem State.writeOut_status (bs : List Byte) : (s.writeOut bs).status = s.status := rfl
@[simp] theorem State.writeOut_pending (bs : List Byte) : (s.writeOut bs).pending = s.pending := rfl
@[simp] theorem State.writeOut_operands (bs : List Byte) : (s.writeOut bs).operands = s.operands := rfl
@[simp] theorem State.writeOut_outLen (bs : List Byte) : (s.writeOut bs).outLen = BitVec.ofNat 32 bs.length := rfl
@[simp] theorem State.writeOut_result (bs : List Byte) : (s.writeOut bs).result = s.result := rfl
@[simp] theorem State.writeOut_mem (bs : List Byte) : (s.writeOut bs).mem = s.mem.writeBytes Buffer.out.base bs := rfl
@[simp] theorem State.writeOut_busErrors (bs : List Byte) : (s.writeOut bs).busErrors = s.busErrors := rfl
@[simp] theorem State.writeOut_unwrittenRead (bs : List Byte) : (s.writeOut bs).unwrittenRead = s.unwrittenRead := rfl
@[simp] theorem State.writeOut_master (bs : List Byte) : (s.writeOut bs).master = s.master := rfl
@[simp] theorem State.writeOut_schedule (bs : List Byte) : (s.writeOut bs).schedule = s.schedule := rfl
@[simp] theorem State.writeOut_draws (bs : List Byte) : (s.writeOut bs).draws = s.draws := rfl

/-! ### `State.writeResult` -/

@[simp] theorem State.writeResult_params (d : Nat) : (s.writeResult d).params = s.params := rfl
@[simp] theorem State.writeResult_ie (d : Nat) : (s.writeResult d).ie = s.ie := rfl
@[simp] theorem State.writeResult_status (d : Nat) : (s.writeResult d).status = s.status := rfl
@[simp] theorem State.writeResult_pending (d : Nat) : (s.writeResult d).pending = s.pending := rfl
@[simp] theorem State.writeResult_operands (d : Nat) : (s.writeResult d).operands = s.operands := rfl
@[simp] theorem State.writeResult_outLen (d : Nat) : (s.writeResult d).outLen = s.outLen := rfl
@[simp] theorem State.writeResult_result (d : Nat) : (s.writeResult d).result = BitVec.ofNat 32 d := rfl
@[simp] theorem State.writeResult_mem (d : Nat) : (s.writeResult d).mem = s.mem := rfl
@[simp] theorem State.writeResult_busErrors (d : Nat) : (s.writeResult d).busErrors = s.busErrors := rfl
@[simp] theorem State.writeResult_unwrittenRead (d : Nat) : (s.writeResult d).unwrittenRead = s.unwrittenRead := rfl
@[simp] theorem State.writeResult_master (d : Nat) : (s.writeResult d).master = s.master := rfl
@[simp] theorem State.writeResult_schedule (d : Nat) : (s.writeResult d).schedule = s.schedule := rfl
@[simp] theorem State.writeResult_draws (d : Nat) : (s.writeResult d).draws = s.draws := rfl

/-! ### `State.setBufLanes` -/

@[simp] theorem State.setBufLanes_params (b : Buffer) (k : Nat) (w : Word) : (s.setBufLanes b k w).params = s.params := rfl
@[simp] theorem State.setBufLanes_ie (b : Buffer) (k : Nat) (w : Word) : (s.setBufLanes b k w).ie = s.ie := rfl
@[simp] theorem State.setBufLanes_status (b : Buffer) (k : Nat) (w : Word) : (s.setBufLanes b k w).status = s.status := rfl
@[simp] theorem State.setBufLanes_pending (b : Buffer) (k : Nat) (w : Word) : (s.setBufLanes b k w).pending = s.pending := rfl
@[simp] theorem State.setBufLanes_operands (b : Buffer) (k : Nat) (w : Word) : (s.setBufLanes b k w).operands = s.operands := rfl
@[simp] theorem State.setBufLanes_outLen (b : Buffer) (k : Nat) (w : Word) : (s.setBufLanes b k w).outLen = s.outLen := rfl
@[simp] theorem State.setBufLanes_result (b : Buffer) (k : Nat) (w : Word) : (s.setBufLanes b k w).result = s.result := rfl
@[simp] theorem State.setBufLanes_mem (b : Buffer) (k : Nat) (w : Word) : (s.setBufLanes b k w).mem = s.mem.writeBytes (b.base + k) [lane w 0, lane w 1, lane w 2, lane w 3] := rfl
@[simp] theorem State.setBufLanes_busErrors (b : Buffer) (k : Nat) (w : Word) : (s.setBufLanes b k w).busErrors = s.busErrors := rfl
@[simp] theorem State.setBufLanes_unwrittenRead (b : Buffer) (k : Nat) (w : Word) : (s.setBufLanes b k w).unwrittenRead = s.unwrittenRead := rfl
@[simp] theorem State.setBufLanes_master (b : Buffer) (k : Nat) (w : Word) : (s.setBufLanes b k w).master = s.master := rfl
@[simp] theorem State.setBufLanes_schedule (b : Buffer) (k : Nat) (w : Word) : (s.setBufLanes b k w).schedule = s.schedule := rfl
@[simp] theorem State.setBufLanes_draws (b : Buffer) (k : Nat) (w : Word) : (s.setBufLanes b k w).draws = s.draws := rfl

/-! ### `State.recordBusError` -/

@[simp] theorem State.recordBusError_params (off : Offset) : (s.recordBusError off).params = s.params := rfl
@[simp] theorem State.recordBusError_ie (off : Offset) : (s.recordBusError off).ie = s.ie := rfl
@[simp] theorem State.recordBusError_status (off : Offset) : (s.recordBusError off).status = s.status := rfl
@[simp] theorem State.recordBusError_pending (off : Offset) : (s.recordBusError off).pending = s.pending := rfl
@[simp] theorem State.recordBusError_operands (off : Offset) : (s.recordBusError off).operands = s.operands := rfl
@[simp] theorem State.recordBusError_outLen (off : Offset) : (s.recordBusError off).outLen = s.outLen := rfl
@[simp] theorem State.recordBusError_result (off : Offset) : (s.recordBusError off).result = s.result := rfl
@[simp] theorem State.recordBusError_mem (off : Offset) : (s.recordBusError off).mem = s.mem := rfl
@[simp] theorem State.recordBusError_busErrors (off : Offset) : (s.recordBusError off).busErrors = off :: s.busErrors := rfl
@[simp] theorem State.recordBusError_unwrittenRead (off : Offset) : (s.recordBusError off).unwrittenRead = s.unwrittenRead := rfl
@[simp] theorem State.recordBusError_master (off : Offset) : (s.recordBusError off).master = s.master := rfl
@[simp] theorem State.recordBusError_schedule (off : Offset) : (s.recordBusError off).schedule = s.schedule := rfl
@[simp] theorem State.recordBusError_draws (off : Offset) : (s.recordBusError off).draws = s.draws := rfl

/-! ### `State.recordUnwrittenRead` -/

@[simp] theorem State.recordUnwrittenRead_params (f : Fault) : (s.recordUnwrittenRead f).params = s.params := rfl
@[simp] theorem State.recordUnwrittenRead_ie (f : Fault) : (s.recordUnwrittenRead f).ie = s.ie := rfl
@[simp] theorem State.recordUnwrittenRead_status (f : Fault) : (s.recordUnwrittenRead f).status = s.status := rfl
@[simp] theorem State.recordUnwrittenRead_pending (f : Fault) : (s.recordUnwrittenRead f).pending = s.pending := rfl
@[simp] theorem State.recordUnwrittenRead_operands (f : Fault) : (s.recordUnwrittenRead f).operands = s.operands := rfl
@[simp] theorem State.recordUnwrittenRead_outLen (f : Fault) : (s.recordUnwrittenRead f).outLen = s.outLen := rfl
@[simp] theorem State.recordUnwrittenRead_result (f : Fault) : (s.recordUnwrittenRead f).result = s.result := rfl
@[simp] theorem State.recordUnwrittenRead_mem (f : Fault) : (s.recordUnwrittenRead f).mem = s.mem := rfl
@[simp] theorem State.recordUnwrittenRead_busErrors (f : Fault) : (s.recordUnwrittenRead f).busErrors = s.busErrors := rfl
@[simp] theorem State.recordUnwrittenRead_unwrittenRead (f : Fault) : (s.recordUnwrittenRead f).unwrittenRead = some f := rfl
@[simp] theorem State.recordUnwrittenRead_master (f : Fault) : (s.recordUnwrittenRead f).master = s.master := rfl
@[simp] theorem State.recordUnwrittenRead_schedule (f : Fault) : (s.recordUnwrittenRead f).schedule = s.schedule := rfl
@[simp] theorem State.recordUnwrittenRead_draws (f : Fault) : (s.recordUnwrittenRead f).draws = s.draws := rfl

/-! ### `State.setProgram` -/

@[simp] theorem State.setProgram_params (p : List HostOp) : (s.setProgram p).params = s.params := rfl
@[simp] theorem State.setProgram_ie (p : List HostOp) : (s.setProgram p).ie = s.ie := rfl
@[simp] theorem State.setProgram_status (p : List HostOp) : (s.setProgram p).status = s.status := rfl
@[simp] theorem State.setProgram_pending (p : List HostOp) : (s.setProgram p).pending = s.pending := rfl
@[simp] theorem State.setProgram_operands (p : List HostOp) : (s.setProgram p).operands = s.operands := rfl
@[simp] theorem State.setProgram_outLen (p : List HostOp) : (s.setProgram p).outLen = s.outLen := rfl
@[simp] theorem State.setProgram_result (p : List HostOp) : (s.setProgram p).result = s.result := rfl
@[simp] theorem State.setProgram_mem (p : List HostOp) : (s.setProgram p).mem = s.mem := rfl
@[simp] theorem State.setProgram_busErrors (p : List HostOp) : (s.setProgram p).busErrors = s.busErrors := rfl
@[simp] theorem State.setProgram_unwrittenRead (p : List HostOp) : (s.setProgram p).unwrittenRead = s.unwrittenRead := rfl
@[simp] theorem State.setProgram_master (p : List HostOp) : (s.setProgram p).master = { s.master with program := p } := rfl
@[simp] theorem State.setProgram_schedule (p : List HostOp) : (s.setProgram p).schedule = s.schedule := rfl
@[simp] theorem State.setProgram_draws (p : List HostOp) : (s.setProgram p).draws = s.draws := rfl

/-! ### `State.record` -/

@[simp] theorem State.record_params (x : Transaction) : (s.record x).params = s.params := rfl
@[simp] theorem State.record_ie (x : Transaction) : (s.record x).ie = s.ie := rfl
@[simp] theorem State.record_status (x : Transaction) : (s.record x).status = s.status := rfl
@[simp] theorem State.record_pending (x : Transaction) : (s.record x).pending = s.pending := rfl
@[simp] theorem State.record_operands (x : Transaction) : (s.record x).operands = s.operands := rfl
@[simp] theorem State.record_outLen (x : Transaction) : (s.record x).outLen = s.outLen := rfl
@[simp] theorem State.record_result (x : Transaction) : (s.record x).result = s.result := rfl
@[simp] theorem State.record_mem (x : Transaction) : (s.record x).mem = s.mem := rfl
@[simp] theorem State.record_busErrors (x : Transaction) : (s.record x).busErrors = s.busErrors := rfl
@[simp] theorem State.record_unwrittenRead (x : Transaction) : (s.record x).unwrittenRead = s.unwrittenRead := rfl
@[simp] theorem State.record_master (x : Transaction) : (s.record x).master = { s.master with trace := x :: s.master.trace } := rfl
@[simp] theorem State.record_schedule (x : Transaction) : (s.record x).schedule = s.schedule := rfl
@[simp] theorem State.record_draws (x : Transaction) : (s.record x).draws = s.draws := rfl

/-! ### `State.harnessCheck` -/

@[simp] theorem State.harnessCheck_params (ok : Bool) : (s.harnessCheck ok).params = s.params := rfl
@[simp] theorem State.harnessCheck_ie (ok : Bool) : (s.harnessCheck ok).ie = s.ie := rfl
@[simp] theorem State.harnessCheck_status (ok : Bool) : (s.harnessCheck ok).status = s.status := rfl
@[simp] theorem State.harnessCheck_pending (ok : Bool) : (s.harnessCheck ok).pending = s.pending := rfl
@[simp] theorem State.harnessCheck_operands (ok : Bool) : (s.harnessCheck ok).operands = s.operands := rfl
@[simp] theorem State.harnessCheck_outLen (ok : Bool) : (s.harnessCheck ok).outLen = s.outLen := rfl
@[simp] theorem State.harnessCheck_result (ok : Bool) : (s.harnessCheck ok).result = s.result := rfl
@[simp] theorem State.harnessCheck_mem (ok : Bool) : (s.harnessCheck ok).mem = s.mem := rfl
@[simp] theorem State.harnessCheck_busErrors (ok : Bool) : (s.harnessCheck ok).busErrors = s.busErrors := rfl
@[simp] theorem State.harnessCheck_unwrittenRead (ok : Bool) : (s.harnessCheck ok).unwrittenRead = s.unwrittenRead := rfl
@[simp] theorem State.harnessCheck_master (ok : Bool) : (s.harnessCheck ok).master = { s.master with testFailed := s.master.testFailed || !ok } := rfl
@[simp] theorem State.harnessCheck_schedule (ok : Bool) : (s.harnessCheck ok).schedule = s.schedule := rfl
@[simp] theorem State.harnessCheck_draws (ok : Bool) : (s.harnessCheck ok).draws = s.draws := rfl

/-! ### `State.setSchedule` -/

@[simp] theorem State.setSchedule_params (r : List Turn) : (s.setSchedule r).params = s.params := rfl
@[simp] theorem State.setSchedule_ie (r : List Turn) : (s.setSchedule r).ie = s.ie := rfl
@[simp] theorem State.setSchedule_status (r : List Turn) : (s.setSchedule r).status = s.status := rfl
@[simp] theorem State.setSchedule_pending (r : List Turn) : (s.setSchedule r).pending = s.pending := rfl
@[simp] theorem State.setSchedule_operands (r : List Turn) : (s.setSchedule r).operands = s.operands := rfl
@[simp] theorem State.setSchedule_outLen (r : List Turn) : (s.setSchedule r).outLen = s.outLen := rfl
@[simp] theorem State.setSchedule_result (r : List Turn) : (s.setSchedule r).result = s.result := rfl
@[simp] theorem State.setSchedule_mem (r : List Turn) : (s.setSchedule r).mem = s.mem := rfl
@[simp] theorem State.setSchedule_busErrors (r : List Turn) : (s.setSchedule r).busErrors = s.busErrors := rfl
@[simp] theorem State.setSchedule_unwrittenRead (r : List Turn) : (s.setSchedule r).unwrittenRead = s.unwrittenRead := rfl
@[simp] theorem State.setSchedule_master (r : List Turn) : (s.setSchedule r).master = s.master := rfl
@[simp] theorem State.setSchedule_schedule (r : List Turn) : (s.setSchedule r).schedule = r := rfl
@[simp] theorem State.setSchedule_draws (r : List Turn) : (s.setSchedule r).draws = s.draws := rfl

/-! ### `State.latchWord` -/

@[simp] theorem State.latchWord_params (w : Word) : (s.latchWord w).params = s.params := rfl
@[simp] theorem State.latchWord_ie (w : Word) : (s.latchWord w).ie = s.ie := rfl
@[simp] theorem State.latchWord_status (w : Word) : (s.latchWord w).status = s.status := rfl
@[simp] theorem State.latchWord_pending (w : Word) : (s.latchWord w).pending = some w := rfl
@[simp] theorem State.latchWord_operands (w : Word) : (s.latchWord w).operands = s.operands := rfl
@[simp] theorem State.latchWord_outLen (w : Word) : (s.latchWord w).outLen = s.outLen := rfl
@[simp] theorem State.latchWord_result (w : Word) : (s.latchWord w).result = s.result := rfl
@[simp] theorem State.latchWord_mem (w : Word) : (s.latchWord w).mem = s.mem := rfl
@[simp] theorem State.latchWord_busErrors (w : Word) : (s.latchWord w).busErrors = s.busErrors := rfl
@[simp] theorem State.latchWord_unwrittenRead (w : Word) : (s.latchWord w).unwrittenRead = none := rfl
@[simp] theorem State.latchWord_master (w : Word) : (s.latchWord w).master = s.master := rfl
@[simp] theorem State.latchWord_schedule (w : Word) : (s.latchWord w).schedule = .engine :: s.schedule := rfl
@[simp] theorem State.latchWord_draws (w : Word) : (s.latchWord w).draws = s.draws := rfl

/-! ### `State.resetEvent` -/

@[simp] theorem State.resetEvent_params : s.resetEvent.params = s.params := rfl
@[simp] theorem State.resetEvent_ie : s.resetEvent.ie = false := rfl
@[simp] theorem State.resetEvent_status : s.resetEvent.status = Status.reset := rfl
@[simp] theorem State.resetEvent_pending : s.resetEvent.pending = none := rfl
@[simp] theorem State.resetEvent_operands : s.resetEvent.operands = Operands.reset := rfl
@[simp] theorem State.resetEvent_outLen : s.resetEvent.outLen = 0 := rfl
@[simp] theorem State.resetEvent_result : s.resetEvent.result = 0 := rfl
@[simp] theorem State.resetEvent_mem : s.resetEvent.mem = [] := rfl
@[simp] theorem State.resetEvent_busErrors : s.resetEvent.busErrors = [] := rfl
@[simp] theorem State.resetEvent_unwrittenRead : s.resetEvent.unwrittenRead = none := rfl
@[simp] theorem State.resetEvent_master : s.resetEvent.master = s.master := rfl
@[simp] theorem State.resetEvent_schedule : s.resetEvent.schedule = s.schedule := rfl
@[simp] theorem State.resetEvent_draws : s.resetEvent.draws = s.draws := rfl

/-! ### The fields of STATUS -/

@[simp] theorem Status.write_done (st : Status) (w : Word) : (st.write w).done = (st.done && !w.getLsbD 1) := rfl
@[simp] theorem Status.write_err (st : Status) (w : Word) : (st.write w).err = (st.err && !w.getLsbD 2) := rfl
@[simp] theorem Status.write_werr (st : Status) (w : Word) : (st.write w).werr = (st.werr && !w.getLsbD 3) := rfl
@[simp] theorem Status.write_errcode (st : Status) (w : Word) : (st.write w).errcode = (if w.getLsbD 2 then 0 else st.errcode) := rfl

@[simp] theorem Status.accepted_done (st : Status) : st.accepted.done = false := rfl
@[simp] theorem Status.accepted_err (st : Status) : st.accepted.err = false := rfl
@[simp] theorem Status.accepted_werr (st : Status) : st.accepted.werr = st.werr := rfl
@[simp] theorem Status.accepted_errcode (st : Status) : st.accepted.errcode = 0 := rfl

@[simp] theorem Status.succeeded_done (st : Status) : st.succeeded.done = true := rfl
@[simp] theorem Status.succeeded_err (st : Status) : st.succeeded.err = false := rfl
@[simp] theorem Status.succeeded_werr (st : Status) : st.succeeded.werr = st.werr := rfl
@[simp] theorem Status.succeeded_errcode (st : Status) : st.succeeded.errcode = 0 := rfl

@[simp] theorem Status.failed_done (st : Status) (c : ErrCode) : (st.failed c).done = true := rfl
@[simp] theorem Status.failed_err (st : Status) (c : ErrCode) : (st.failed c).err = true := rfl
@[simp] theorem Status.failed_werr (st : Status) (c : ErrCode) : (st.failed c).werr = st.werr := rfl
@[simp] theorem Status.failed_errcode (st : Status) (c : ErrCode) : (st.failed c).errcode = c.code := rfl

@[simp] theorem Status.dropped_done (st : Status) : st.dropped.done = st.done := rfl
@[simp] theorem Status.dropped_err (st : Status) : st.dropped.err = st.err := rfl
@[simp] theorem Status.dropped_werr (st : Status) : st.dropped.werr = true := rfl
@[simp] theorem Status.dropped_errcode (st : Status) : st.dropped.errcode = st.errcode := rfl

/-! ### BUSY -/

@[simp] theorem State.busy_eq_false_iff : s.busy = false ↔ s.pending = none := by
  simp [State.busy]

theorem State.busy_of_pending {s : State} {w : Word} (h : s.pending = some w) : s.busy = true := by
  simp [State.busy, h]

theorem State.pending_of_busy {s : State} (h : s.busy = true) : ∃ w, s.pending = some w :=
  Option.isSome_iff_exists.mp h

@[simp] theorem State.accept_busy (w : Word) : (s.accept w).busy = true := rfl

@[simp] theorem State.complete_busy : s.complete.busy = false := rfl

@[simp] theorem State.raiseCmdError_busy (c : ErrCode) : (s.raiseCmdError c).busy = false := rfl

end Sys2Proof.Machine
end

