-- ==== Sys2Proof/Laws/Memory.lean ====
section
/-! SUPPORT. Reading after writing, the canonical form, and where the bytes of memory lie. -/

namespace Sys2Proof.Machine

open Sys2Proof

/-! ### One byte -/

@[simp] theorem Memory.read?_nil (a : Nat) : Memory.read? [] a = none := rfl

theorem Memory.read?_write (m : Memory) (a b : Nat) (v : Byte) :
    (m.write a v).read? b = if b = a then some v else m.read? b := by
  induction m with
  | nil => simp [Memory.write, Memory.read?]
  | cons c m ih =>
    obtain ⟨x, u⟩ := c
    simp only [Memory.write]
    split
    · simp [Memory.read?]
    · split
      · subst_vars
        by_cases hb : b = x <;> simp [Memory.read?, hb]
      · by_cases hb : b = x
        · subst hb
          simp [Memory.read?, Ne.symm ‹¬a = b›]
        · simp [Memory.read?, hb, ih]

theorem Memory.mem_write {m : Memory} {a : Nat} {v : Byte} {c : Host.Cell} (h : c ∈ m.write a v) :
    c = (a, v) ∨ c ∈ m := by
  induction m with
  | nil => simpa [Memory.write] using h
  | cons d m ih =>
    obtain ⟨x, u⟩ := d
    simp only [Memory.write] at h
    split at h
    · simpa using h
    · split at h
      · rcases List.mem_cons.mp h with h | h
        · exact .inl h
        · exact .inr (List.mem_cons_of_mem _ h)
      · rcases List.mem_cons.mp h with h | h
        · exact .inr (by simp [h])
        · rcases ih h with h | h
          · exact .inl h
          · exact .inr (List.mem_cons_of_mem _ h)

theorem Memory.wf_write {m : Memory} (h : m.wf) (a : Nat) (v : Byte) : (m.write a v).wf := by
  induction m with
  | nil => simp [Memory.wf, Memory.write]
  | cons d m ih =>
    obtain ⟨x, u⟩ := d
    obtain ⟨hx, hm⟩ := List.pairwise_cons.mp h
    simp only [Memory.write]
    split
    · refine List.pairwise_cons.mpr ⟨?_, h⟩
      intro c hc
      rcases List.mem_cons.mp hc with rfl | hc
      · assumption
      · exact Nat.lt_trans ‹_› (hx c hc)
    · split
      · subst_vars
        exact List.pairwise_cons.mpr ⟨hx, hm⟩
      · refine List.pairwise_cons.mpr ⟨?_, ih hm⟩
        intro c hc
        rcases Memory.mem_write hc with rfl | hc
        · simp only; omega
        · exact hx c hc

/-! ### Several bytes -/

theorem Memory.read?_writeBytes (vs : List Byte) (m : Memory) (a b : Nat) :
    (m.writeBytes a vs).read? b = if a ≤ b ∧ b < a + vs.length then vs[b - a]? else m.read? b := by
  induction vs generalizing m a with
  | nil => simp [Memory.writeBytes]
  | cons v vs ih =>
    simp only [Memory.writeBytes, ih, Memory.read?_write, List.length_cons]
    by_cases hb : b = a
    · subst hb
      simp
    · by_cases h : a + 1 ≤ b ∧ b < a + 1 + vs.length
      · rw [if_pos h, if_pos (by omega), show b - a = b - (a + 1) + 1 by omega]
        simp
      · rw [if_neg h, if_neg hb, if_neg (by omega)]

theorem Memory.wf_writeBytes {m : Memory} (h : m.wf) (a : Nat) (vs : List Byte) : (m.writeBytes a vs).wf := by
  induction vs generalizing m a with
  | nil => exact h
  | cons v vs ih => exact ih (Memory.wf_write h a v) (a + 1)

theorem Memory.mem_writeBytes {vs : List Byte} {m : Memory} {a : Nat} {c : Host.Cell}
    (h : c ∈ m.writeBytes a vs) : (a ≤ c.1 ∧ c.1 < a + vs.length) ∨ c ∈ m := by
  induction vs generalizing m a with
  | nil => exact .inr h
  | cons v vs ih =>
    rcases ih h with h | h
    · exact .inl (by simp only [List.length_cons]; omega)
    · rcases Memory.mem_write h with rfl | h
      · exact .inl (by simp)
      · exact .inr h

/-! ### Buffers after a command's writes -/

theorem State.bufByte_writeOut (s : State) (bs : List Byte) (k : Nat) (h : k < bs.length) :
    (s.writeOut bs).bufByte .out k = some bs[k] := by
  simp [State.bufByte, Memory.read?_writeBytes, h]

theorem State.read?_writeOut_outside (s : State) (bs : List Byte) (a : Nat)
    (h : ¬ (Buffer.out.base ≤ a ∧ a < Buffer.out.base + bs.length)) :
    (s.writeOut bs).mem.read? a = s.mem.read? a := by
  simp only [State.writeOut_mem, Memory.read?_writeBytes, if_neg h]

end Sys2Proof.Machine
end

