-- ==== Sys2Proof/Laws/Bus.lean ====
section
/-! SUPPORT. The register map, and once for every register what a host access can do. -/

namespace Sys2Proof.Machine

open Sys2Proof

/-! ### The register map -/

theorem mem_of_lookup {α : Type} {l : List (Nat × α)} {a : Nat} {x : α} (h : l.lookup a = some x) : (a, x) ∈ l := by
  induction l with
  | nil => simp at h
  | cons p l ih =>
    obtain ⟨b, y⟩ := p
    rw [List.lookup_cons] at h
    split at h
    · cases h
      have : a = b := by simpa using ‹(a == b) = true›
      simp [this]
    · exact List.mem_cons_of_mem _ (ih h)

theorem registerMap_below {a : Nat} {r : Reg} (h : (a, r) ∈ registerMap) : a < 0x60 ∧ ∀ b k, r ≠ .buf b k := by
  have all : ∀ x ∈ registerMap, x.1 < 0x60 ∧ ∀ b k, x.2 ≠ .buf b k := by
    intro x hx
    simp only [registerMap, List.mem_cons, List.not_mem_nil, or_false] at hx
    rcases hx with rfl | rfl | rfl | rfl | rfl | rfl | rfl | rfl | rfl | rfl | rfl | rfl | rfl | rfl | rfl | rfl |
      rfl | rfl | rfl | rfl | rfl <;> simp
  exact all _ h

theorem lookup_above {a : Nat} (h : 0x60 ≤ a) : registerMap.lookup a = none := by
  rcases e : registerMap.lookup a with _ | r
  · rfl
  · have := (registerMap_below (mem_of_lookup e)).1
    omega

theorem bufferAt_base (p : Params) (b : Buffer) (k : Nat) (hp : p.bufBytes ≤ 0x10000) (hk : k < p.bufBytes) :
    bufferAt p (b.base + k) = some (.buf b k) := by
  have hm : (b.base + k) % 0x10000 = k := by cases b <;> simp only [Buffer.base] <;> omega
  have hd : (b.base + k) / 0x10000 = match b with | .inA => 1 | .inB => 2 | .out => 3 := by
    cases b <;> simp only [Buffer.base] <;> omega
  cases b <;> simp [bufferAt, hm, hd, hk]

/-- The offset of a buffer byte names that byte (`10_state.md` R23). -/
theorem regAt_base (p : Params) (b : Buffer) (k : Nat) (hp : p.bufBytes ≤ 0x10000) (hk : k < p.bufBytes) :
    regAt p (b.base + k) = some (.buf b k) := by
  rw [regAt, lookup_above (by cases b <;> simp only [Buffer.base] <;> omega), bufferAt_base p b k hp hk]

theorem bufferAt_eq_buf {p : Params} {off : Nat} {r : Reg} (h : bufferAt p off = some r) :
    ∃ b k, r = .buf b k ∧ k < p.bufBytes ∧ off = b.base + k ∧ k % 4 = off % 4 := by
  simp only [bufferAt] at h
  split at h
  · split at h
    · cases h; exact ⟨_, _, rfl, ‹_›, by simp only [Buffer.base]; omega, by omega⟩
    split at h
    · cases h; exact ⟨_, _, rfl, ‹_›, by simp only [Buffer.base]; omega, by omega⟩
    split at h
    · cases h; exact ⟨_, _, rfl, ‹_›, by simp only [Buffer.base]; omega, by omega⟩
    · cases h
  · cases h

/-- An offset that names a buffer byte lies in that buffer. -/
theorem regAt_eq_buf {p : Params} {off k : Nat} {b : Buffer} (h : regAt p off = some (.buf b k)) :
    k < p.bufBytes ∧ off = b.base + k ∧ k % 4 = off % 4 := by
  simp only [regAt] at h
  split at h
  · cases h
    exact absurd rfl ((registerMap_below (mem_of_lookup ‹_›)).2 b k)
  · obtain ⟨b', k', e, hk, ho⟩ := bufferAt_eq_buf h
    cases e
    exact ⟨hk, ho⟩

/-! ### Words and lanes (`20_memory.md` R49, R58) -/

/-- Every field of the word STATUS reads as, and its reserved bits (`10_state.md` R27). -/
theorem statusWord_fields : ∀ (done err werr busy : Bool) (c : BitVec 4),
    let w := statusWord { done := done, err := err, werr := werr, errcode := c } busy
    w.getLsbD 0 = busy ∧ w.getLsbD 1 = done ∧ w.getLsbD 2 = err ∧ w.getLsbD 3 = werr ∧
    w.extractLsb' 8 4 = c ∧ w.extractLsb' 4 4 = 0 ∧ w.extractLsb' 12 20 = 0 := by decide

/-- Every bit of the word CAPS reads as (`10_state.md` R25). -/
theorem capsWord_bit (p : Params) (i : Nat) :
    (capsWord p).getLsbD i = if i < 24 then p.bufBytes.testBit i else decide (i = 24) && p.hasBitdiff := by
  simp only [capsWord, BitVec.getLsbD_append, BitVec.getLsbD_ofNat]
  by_cases h : i < 24
  · simp [h]
  · by_cases h2 : i = 24
    · subst h2; cases p.hasBitdiff <;> rfl
    · rw [if_neg h, if_neg h, if_neg (by omega)]; simp [h2]

/-- The word made of a word's lanes is that word. -/
theorem laneWord_lane (w : Word) : laneWord (lane w 0) (lane w 1) (lane w 2) (lane w 3) = w := by
  apply BitVec.eq_of_getLsbD_eq
  intro i hi
  simp only [laneWord, lane, BitVec.getLsbD_append, BitVec.getLsbD_extractLsb']
  by_cases h1 : i < 8
  · simp [h1]
  by_cases h2 : i < 16
  · simp [h1, show i - 8 < 8 by omega, show 8 + (i - 8) = i by omega]
  by_cases h3 : i < 24
  · simp [h1, show ¬ i - 8 < 8 by omega, show i - 8 - 8 < 8 by omega, show 16 + (i - 8 - 8) = i by omega]
  · simp [h1, show ¬ i - 8 < 8 by omega, show ¬ i - 8 - 8 < 8 by omega, show i - 8 - 8 - 8 < 8 by omega,
      show 24 + (i - 8 - 8 - 8) = i by omega]

/-- The lanes of a word made of four bytes are those bytes. -/
theorem lane_laneWord (b0 b1 b2 b3 : Byte) :
    lane (laneWord b0 b1 b2 b3) 0 = b0 ∧ lane (laneWord b0 b1 b2 b3) 1 = b1 ∧
    lane (laneWord b0 b1 b2 b3) 2 = b2 ∧ lane (laneWord b0 b1 b2 b3) 3 = b3 := by
  refine ⟨?_, ?_, ?_, ?_⟩ <;>
    (apply BitVec.eq_of_getLsbD_eq
     intro i hi
     simp only [lane, laneWord, BitVec.getLsbD_extractLsb', BitVec.getLsbD_append])
  · simp [hi]
  · simp [hi, show ¬ 8 + i < 8 by omega]
  · simp [hi, show ¬ 16 + i < 8 by omega, show ¬ 16 + i - 8 < 8 by omega, show 16 + i - 8 - 8 = i by omega]
  · simp [hi, show ¬ 24 + i < 8 by omega, show ¬ 24 + i - 8 < 8 by omega, show ¬ 24 + i - 8 - 8 < 8 by omega,
      show 24 + i - 8 - 8 - 8 = i by omega]

theorem getElem_setLanes16 (v : Bytes16) (j : Fin 4) (w : Word) (i : Fin 4) :
    (setLanes16 v j w)[4 * j.val + i.val] = lane w i := by
  unfold setLanes16
  fin_cases i <;> simp

theorem getElem_setLanes16_ne (v : Bytes16) (j : Fin 4) (w : Word) (i : Fin 16) (h : i.val / 4 ≠ j.val) :
    (setLanes16 v j w)[i] = v[i] := by
  unfold setLanes16
  simp only [Fin.getElem_fin, Vector.getElem_set]
  rw [if_neg (by omega), if_neg (by omega), if_neg (by omega), if_neg (by omega)]

/-- A word of a 16-byte register reads back (`20_memory.md` R58). -/
theorem lanes16_setLanes16 (v : Bytes16) (j : Fin 4) (w : Word) : lanes16 (setLanes16 v j w) j = w := by
  have h0 : (setLanes16 v j w)[4 * j.val] = lane w 0 := getElem_setLanes16 v j w 0
  have h1 : (setLanes16 v j w)[4 * j.val + 1] = lane w 1 := getElem_setLanes16 v j w 1
  have h2 : (setLanes16 v j w)[4 * j.val + 2] = lane w 2 := getElem_setLanes16 v j w 2
  have h3 : (setLanes16 v j w)[4 * j.val + 3] = lane w 3 := getElem_setLanes16 v j w 3
  rw [lanes16, h0, h1, h2, h3, laneWord_lane]

/-! ### Guarded writes (`20_memory.md` R57) -/

theorem State.guarded_idle {s : State} (h : s.busy = false) (t : State) : s.guarded t = t := by
  simp [State.guarded, h]

theorem State.guarded_busy {s : State} (h : s.busy = true) (t : State) :
    s.guarded t = { s with status := s.status.dropped } := by
  simp [State.guarded, h]

/-- A property that a dropped write and the action itself both have, a guarded write has. -/
theorem State.guarded_induct {P : State → Prop} {s t : State}
    (hd : P { s with status := s.status.dropped }) (ht : s.busy = false → P t) : P (s.guarded t) := by
  unfold State.guarded
  split
  · exact hd
  · exact ht (Bool.eq_false_iff.mpr ‹_›)

/-! ### What an access can change -/

/-- What a host write leaves alone, whatever the register. -/
theorem writeReg_frame (r : Reg) (w : Word) (s : State) :
    (writeReg r w s).params = s.params ∧ (writeReg r w s).outLen = s.outLen ∧
    (writeReg r w s).result = s.result ∧ (writeReg r w s).busErrors = s.busErrors ∧
    (writeReg r w s).unwrittenRead = s.unwrittenRead ∧
    (writeReg r w s).master = s.master ∧ (writeReg r w s).schedule = s.schedule ∧
    (writeReg r w s).draws = s.draws := by
  cases r with
  | buf b k =>
    cases b <;> simp only [writeReg, State.guarded]
    · split <;> simp
    · split <;> simp
    · simp
  | _ =>
    simp only [writeReg, State.guarded]
    (try split) <;> simp

/-- While a command is pending a host write changes CTRL and STATUS at most. -/
theorem writeReg_busy {s : State} (h : s.busy = true) (r : Reg) (w : Word) :
    ∃ (ie : Bool) (st : Status), writeReg r w s = { s with ie := ie, status := st } := by
  cases r with
  | buf b k =>
    cases b <;> simp only [writeReg, State.guarded_busy h]
    · exact ⟨s.ie, _, rfl⟩
    · exact ⟨s.ie, _, rfl⟩
    · exact ⟨s.ie, s.status, rfl⟩
  | _ =>
    simp only [writeReg, State.guarded_busy h]
    first
      | exact ⟨_, s.status, rfl⟩
      | exact ⟨s.ie, _, rfl⟩

/-- An access is a bus error, or a read, or a write of a register. -/
theorem busEffect_cases (t : Transfer) (s : State) :
    busEffect t s = s.recordBusError t.off ∨
    (∃ r, t.target s.params = some r ∧ busEffect t s = { s with draws := s.draws + drawsOf r }) ∨
    (∃ r w, t.target s.params = some r ∧ busEffect t s = writeReg r w s) := by
  unfold busEffect
  split
  · exact .inl rfl
  · split
    · exact .inr (.inl ⟨_, ‹_›, rfl⟩)
    · exact .inr (.inr ⟨_, _, ‹_›, rfl⟩)

theorem target_eq_some {t : Transfer} {p : Params} {r : Reg} (h : t.target p = some r) :
    t.wf ∧ regAt p t.off.toNat = some r := by
  unfold Transfer.target at h
  split at h
  · exact ⟨‹_›, h⟩
  · cases h

theorem target_of_wf {t : Transfer} (p : Params) (h : t.wf) : t.target p = regAt p t.off.toNat := by
  rw [Transfer.target, if_pos h]

/-- An aligned 4-byte write to a listed offset writes its register. -/
theorem busEffect_write (s : State) {off : Offset} {w : Word} {r : Reg} (h4 : off.toNat % 4 = 0)
    (h : regAt s.params off.toNat = some r) : busEffect (writeAt off w) s = writeReg r w s := by
  have ht : (writeAt off w).target s.params = some r := (target_of_wf _ ⟨rfl, h4⟩).trans h
  unfold busEffect
  rw [ht]
  rfl

/-- An aligned 4-byte read of a listed offset returns its register. -/
theorem busResponse_read (s : State) {off : Offset} {r : Reg} (h4 : off.toNat % 4 = 0)
    (h : regAt s.params off.toNat = some r) :
    busResponse (readAt off) s = { data := readReg r s, buserr := false } := by
  have ht : (readAt off).target s.params = some r := (target_of_wf _ ⟨rfl, h4⟩).trans h
  unfold busResponse
  rw [ht]
  rfl

/-- An aligned 4-byte read of a listed offset moves the counter of draws only. -/
theorem busEffect_read (s : State) {off : Offset} {r : Reg} (h4 : off.toNat % 4 = 0)
    (h : regAt s.params off.toNat = some r) :
    busEffect (readAt off) s = { s with draws := s.draws + drawsOf r } := by
  have ht : (readAt off).target s.params = some r := (target_of_wf _ ⟨rfl, h4⟩).trans h
  unfold busEffect
  rw [ht]
  rfl

/-- An access changes nothing of the host. -/
@[simp] theorem busEffect_master (t : Transfer) (s : State) : (busEffect t s).master = s.master := by
  rcases busEffect_cases t s with e | ⟨r, _, e⟩ | ⟨r, w, _, e⟩ <;> rw [e]
  · rfl
  · exact (writeReg_frame r w s).2.2.2.2.2.1

/-- Of the device, a host operation does what its access does. -/
theorem hostOp_device (op : HostOp) (rest : List HostOp) (s : State) :
    hostOp op rest s = { busEffect op.access s with master := (hostOp op rest s).master } := by
  cases op with
  | poll =>
    simp only [hostOp]
    split <;> rfl
  | _ => rfl

/-- Of the host, an operation adds its access to the record. -/
theorem hostOp_trace (op : HostOp) (rest : List HostOp) (s : State) :
    (hostOp op rest s).master.trace =
      { xfer := op.access, resp := busResponse op.access s } :: s.master.trace := by
  cases op with
  | poll =>
    simp only [hostOp]
    split <;> simp [perform]
  | _ => simp [hostOp, perform]

/-- The host's step is idle or one access. -/
theorem hostStep_cases (s : State) :
    hostStep s = s ∨ ∃ (t : Transfer) (m : BusMaster), hostStep s = { busEffect t s with master := m } := by
  unfold hostStep
  split
  · exact .inl rfl
  · exact .inr ⟨_, _, hostOp_device _ _ s⟩

end Sys2Proof.Machine
end

