-- ==== Sys2Proof/Laws/Bytes.lean ====
section
/-! SUPPORT. Byte sequences: big-endian integers, XOR, right alignment, popcount and the Hamming distance. -/

namespace Sys2Proof.Machine

open Sys2Proof

/-! ### Big-endian integers (`00_scope.md` R11) -/

theorem pow_256 (n : Nat) : (256 : Nat) ^ n = 2 ^ (8 * n) := by
  rw [pow_mul]; rfl

@[simp] theorem beInt_nil : beInt [] = 0 := rfl

theorem beInt_append (s t : List Byte) : beInt (s ++ t) = beInt s * 256 ^ t.length + beInt t := by
  induction s with
  | nil => simp
  | cons b s ih => simp only [List.cons_append, beInt, ih, List.length_append, pow_add]; ring

theorem beInt_lt (s : List Byte) : beInt s < 256 ^ s.length := by
  induction s with
  | nil => simp
  | cons b s ih =>
    have hb : b.toNat < 256 := b.isLt
    simp only [beInt, List.length_cons, pow_succ]
    nlinarith [Nat.pos_of_ne_zero (pow_ne_zero s.length (by decide : (256 : Nat) ≠ 0))]

theorem beInt_beBytes (n v : Nat) : beInt (beBytes n v) = v % 256 ^ n := by
  induction n with
  | zero => simp [beBytes, Nat.mod_one]
  | succ n ih =>
    have e : v % 256 ^ (n + 1) = v % 256 ^ n + 256 ^ n * (v / 256 ^ n % 256) := Nat.mod_pow_succ
    rw [beBytes, beInt, ih, length_beBytes, BitVec.toNat_ofNat, e]
    ring

theorem beBytes_beInt (s : List Byte) : beBytes s.length (beInt s) = s := by
  have key : ∀ (s : List Byte) (q : Nat), beBytes s.length (q * 256 ^ s.length + beInt s) = s := by
    intro s
    induction s with
    | nil => simp [beBytes]
    | cons b s ih =>
      intro q
      have hlt := beInt_lt s
      have hpos : 0 < 256 ^ s.length := Nat.pos_of_ne_zero (pow_ne_zero _ (by decide))
      have e : q * 256 ^ (s.length + 1) + (b.toNat * 256 ^ s.length + beInt s)
          = (q * 256 + b.toNat) * 256 ^ s.length + beInt s := by ring
      simp only [List.length_cons, beInt, beBytes, e, ih]
      congr 1
      rw [mul_comm, Nat.mul_add_div hpos, Nat.div_eq_of_lt hlt, Nat.add_zero]
      apply BitVec.eq_of_toNat_eq
      have hb : b.toNat < 256 := b.isLt
      rw [BitVec.toNat_ofNat]
      omega
  simpa using key s 0

@[simp] theorem beBytes16_toList (v : Nat) : (beBytes16 v).toList = beBytes 16 v := rfl

theorem beInt_beBytes16 (v : Nat) : beInt (beBytes16 v).toList = v % 2 ^ 128 := by
  rw [beBytes16_toList, beInt_beBytes, pow_256]

theorem beBytes16_beInt (n : Bytes16) : beBytes16 (beInt n.toList) = n := by
  apply Vector.toList_inj.mp
  rw [beBytes16_toList]
  simpa using beBytes_beInt n.toList

theorem beInt_zeros (n : Nat) : beInt (List.replicate n 0) = 0 := by
  induction n with
  | zero => rfl
  | succ n ih => rw [List.replicate_succ, beInt, ih]; simp

/-! ### The counter block (`40_counter_block.md`) -/

theorem beInt_block (n : Bytes16) (idx : Nat) :
    beInt (block n idx).toList = (beInt n.toList + idx) % 2 ^ 128 := by
  rw [block, beInt_beBytes16, Nat.mod_mod]

theorem block_zero (n : Bytes16) : block n 0 = n := by
  have h := beInt_lt n.toList
  rw [Vector.length_toList] at h
  rw [block, Nat.add_zero, Nat.mod_eq_of_lt (by simpa using h), beBytes16_beInt]

/-- A 16-byte value with the integer of a counter block is that block. -/
theorem eq_block {n cb : Bytes16} {idx : Nat} (h : beInt cb.toList = (beInt n.toList + idx) % 2 ^ 128) :
    cb = block n idx := by
  rw [block, ← h, beBytes16_beInt]

/-! ### XOR of byte sequences (`00_scope.md` R12) -/

@[simp] theorem length_xorBytes (s t : List Byte) : (xorBytes s t).length = min s.length t.length := by
  simp [xorBytes]

theorem getElem_xorBytes (s t : List Byte) (k : Nat) (h : k < (xorBytes s t).length) :
    (xorBytes s t)[k] = s[k]'(by simp at h; omega) ^^^ t[k]'(by simp at h; omega) := by
  simp [xorBytes]

theorem xorBytes_comm (s t : List Byte) : xorBytes s t = xorBytes t s := by
  unfold xorBytes
  rw [List.zipWith_comm]
  simp [BitVec.xor_comm]

theorem xorBytes_cancel (s t : List Byte) (h : s.length ≤ t.length) : xorBytes (xorBytes s t) t = s := by
  apply List.ext_getElem
  · simp; omega
  · intro k h1 h2
    simp [getElem_xorBytes]

theorem two_pow_mul_add_xor (x y r q k : Nat) (hr : r < 2 ^ k) (hq : q < 2 ^ k) :
    (2 ^ k * x + r) ^^^ (2 ^ k * y + q) = 2 ^ k * (x ^^^ y) + (r ^^^ q) := by
  apply Nat.eq_of_testBit_eq
  intro i
  rw [Nat.testBit_xor, Nat.testBit_two_pow_mul_add _ hr, Nat.testBit_two_pow_mul_add _ hq,
    Nat.testBit_two_pow_mul_add _ (Nat.xor_lt_two_pow hr hq)]
  split <;> simp

theorem beInt_xorBytes (s t : List Byte) (h : s.length = t.length) :
    beInt (xorBytes s t) = beInt s ^^^ beInt t := by
  induction s generalizing t with
  | nil => cases t with
    | nil => rfl
    | cons _ _ => simp at h
  | cons a s ih => cases t with
    | nil => simp at h
    | cons b t =>
      have hl : s.length = t.length := by simpa using h
      have e := pow_256
      have hs := beInt_lt s
      have ht := beInt_lt t
      have hx : (xorBytes s t).length = t.length := by simp [hl]
      rw [e] at hs ht
      rw [hl] at hs
      show (a ^^^ b).toNat * 256 ^ (xorBytes s t).length + beInt (xorBytes s t) = _
      rw [ih t hl, hx, beInt, beInt, hl, e, BitVec.toNat_xor, mul_comm, mul_comm a.toNat, mul_comm b.toNat,
        two_pow_mul_add_xor _ _ _ _ _ hs ht]

/-! ### Right alignment (`43_bit_difference.md` R107) -/

@[simp] theorem length_alignRight (n : Nat) (a : List Byte) : (alignRight n a).length = max n a.length := by
  simp [alignRight]; omega

theorem beInt_alignRight (n : Nat) (a : List Byte) : beInt (alignRight n a) = beInt a := by
  rw [alignRight, beInt_append, beInt_zeros]; simp

theorem getElem_alignRight (n : Nat) (a : List Byte) (h : a.length ≤ n) (k : Nat) (hk : k < n) :
    (alignRight n a)[k]'(by simp; omega) = if n - a.length ≤ k then a.getD (k - (n - a.length)) 0 else 0 := by
  simp only [alignRight, List.getElem_append, List.length_replicate, List.getElem_replicate]
  split
  · rw [if_neg (by omega)]
  · rw [if_pos (by omega), List.getD_eq_getElem?_getD, List.getElem?_eq_getElem (by omega)]; rfl

@[simp] theorem length_byteDifference (a b : List Byte) :
    (byteDifference a b).length = max a.length b.length := by
  simp [byteDifference]

theorem beInt_byteDifference (a b : List Byte) : beInt (byteDifference a b) = beInt a ^^^ beInt b := by
  rw [byteDifference, beInt_xorBytes _ _ (by simp), beInt_alignRight, beInt_alignRight]

theorem byteDifference_comm (a b : List Byte) : byteDifference a b = byteDifference b a := by
  rw [byteDifference, byteDifference, xorBytes_comm, max_comm]

/-! ### Popcount and the Hamming distance (`43_bit_difference.md` R111 to R116) -/

theorem popcount_add (w u v : Nat) : popcount (w + u) v = popcount w (v % 2 ^ w) + popcount u (v / 2 ^ w) := by
  induction w generalizing v with
  | zero => simp [popcount]
  | succ w ih =>
    rw [Nat.add_right_comm, popcount, popcount, ih]
    have e1 : v % 2 ^ (w + 1) % 2 = v % 2 := Nat.mod_mod_of_dvd _ (dvd_pow_self 2 (by omega))
    have e2 : v % 2 ^ (w + 1) / 2 = v / 2 % 2 ^ w := by
      rw [pow_succ, mul_comm (2 ^ w) 2, Nat.mod_mul_right_div_self]
    have e3 : v / 2 / 2 ^ w = v / 2 ^ (w + 1) := by rw [Nat.div_div_eq_div_mul, pow_succ, mul_comm 2]
    rw [e1, e2, e3, add_assoc]

theorem popcount_le (w v : Nat) : popcount w v ≤ w := by
  induction w generalizing v with
  | zero => simp [popcount]
  | succ w ih => have := ih (v / 2); simp only [popcount]; omega

@[simp] theorem popcount_zero (w : Nat) : popcount w 0 = 0 := by
  induction w with
  | zero => rfl
  | succ w ih => simp [popcount, ih]

theorem popcountBytes_eq_popcount (s : List Byte) : popcountBytes s = popcount (8 * s.length) (beInt s) := by
  induction s with
  | nil => rfl
  | cons b s ih =>
    have e := pow_256 s.length
    have hs := beInt_lt s
    have hpos : 0 < 2 ^ (8 * s.length) := by positivity
    rw [e] at hs
    have h0 : popcountBytes (b :: s) = popcount 8 b.toNat + popcountBytes s := by simp [popcountBytes]
    rw [h0, ih, List.length_cons, mul_add, mul_one, popcount_add (8 * s.length) 8, beInt, e, mul_comm b.toNat,
      Nat.mul_add_mod, Nat.mod_eq_of_lt hs, Nat.mul_add_div hpos, Nat.div_eq_of_lt hs, Nat.add_zero, add_comm]

theorem popcountBytes_le (s : List Byte) : popcountBytes s ≤ 8 * s.length :=
  popcountBytes_eq_popcount s ▸ popcount_le _ _

theorem popcount_of_lt (w u v : Nat) (h : v < 2 ^ w) : popcount (w + u) v = popcount w v := by
  rw [popcount_add, Nat.mod_eq_of_lt h, Nat.div_eq_of_lt h]; simp

theorem popcount_eq_of_lt {w u v : Nat} (hw : v < 2 ^ w) (hu : v < 2 ^ u) : popcount w v = popcount u v := by
  rcases Nat.le_total w u with h | h
  · obtain ⟨d, rfl⟩ := Nat.exists_eq_add_of_le h
    exact (popcount_of_lt w d v hw).symm
  · obtain ⟨d, rfl⟩ := Nat.exists_eq_add_of_le h
    exact popcount_of_lt u d v hu

theorem hammingDistance_eq_popcount (a b : List Byte) :
    hammingDistance a b = popcount (8 * max a.length b.length) (beInt a ^^^ beInt b) := by
  rw [hammingDistance, popcountBytes_eq_popcount, beInt_byteDifference, length_byteDifference]

theorem hammingDistance_comm (a b : List Byte) : hammingDistance a b = hammingDistance b a := by
  rw [hammingDistance, hammingDistance, byteDifference_comm]

theorem hammingDistance_self (a : List Byte) : hammingDistance a a = 0 := by
  rw [hammingDistance_eq_popcount, Nat.xor_self, popcount_zero]

/-- The distance depends on the two integers only (`43_bit_difference.md` R113). -/
theorem hammingDistance_congr {a b a' b' : List Byte} (ha : beInt a = beInt a') (hb : beInt b = beInt b') :
    hammingDistance a b = hammingDistance a' b' := by
  have e := pow_256
  have hlt : ∀ x y : List Byte, beInt x ^^^ beInt y < 2 ^ (8 * max x.length y.length) := fun x y =>
    Nat.xor_lt_two_pow
      (lt_of_lt_of_le (beInt_lt x) (by rw [e]; exact Nat.pow_le_pow_right (by decide) (by omega)))
      (lt_of_lt_of_le (beInt_lt y) (by rw [e]; exact Nat.pow_le_pow_right (by decide) (by omega)))
  rw [hammingDistance_eq_popcount, hammingDistance_eq_popcount, ha, hb]
  refine popcount_eq_of_lt ?_ ?_
  · simpa only [ha, hb] using hlt a b
  · exact hlt a' b'

end Sys2Proof.Machine
end

