-- ==== Sys2Proof/Laws/Keystream.lean ====
section
/-! SUPPORT. The length and the bytes of the keystream. -/

namespace Sys2Proof.Machine

open Sys2Proof

theorem length_flatMap_blocks (f : Nat → Bytes16) (m : Nat) :
    ((List.range m).flatMap fun i => (f i).toList).length = 16 * m := by
  induction m with
  | zero => rfl
  | succ m ih => rw [List.range_succ, List.flatMap_append, List.length_append, ih]; simp; omega

theorem getElem?_flatMap_blocks (f : Nat → Bytes16) (m j : Nat) (h : j < 16 * m) :
    ((List.range m).flatMap fun i => (f i).toList)[j]? =
      some ((f (j / 16))[j % 16]'(Nat.mod_lt _ (by decide))) := by
  induction m with
  | zero => omega
  | succ m ih =>
    rw [List.range_succ, List.flatMap_append, List.getElem?_append, length_flatMap_blocks]
    by_cases hj : j < 16 * m
    · rw [if_pos hj, ih hj]
    · have hd : j / 16 = m := by omega
      have hm : j - 16 * m = j % 16 := by omega
      rw [if_neg hj, hm, hd]
      simp [Nat.mod_lt]

variable (E : BlockCipher) (k n : Bytes16) (i0 : Nat)

@[simp] theorem length_keystream (L : Nat) : (keystream E k n i0 L).length = L := by
  rw [keystream, List.length_take, length_flatMap_blocks (fun i => E k (block n (i0 + i))), nblocks]
  omega

/-- Byte `j` of the keystream is byte `j mod 16` of the block of index `i0 + j div 16` (`41_keystream.md` R93). -/
theorem getElem_keystream (L j : Nat) (h : j < L) :
    (keystream E k n i0 L)[j]'(by simpa using h) =
      (E k (block n (i0 + j / 16)))[j % 16]'(Nat.mod_lt _ (by decide)) := by
  apply Option.some.inj
  rw [← List.getElem?_eq_getElem, keystream, List.getElem?_take, if_pos h,
    getElem?_flatMap_blocks (fun i => E k (block n (i0 + i))) _ _ (by rw [nblocks]; omega)]

@[simp] theorem length_ctrApply (data : List Byte) : (ctrApply E k n i0 data).length = data.length := by
  simp [ctrApply]

/-- Byte `j` of CTRX's output (`42_ctr_cipher.md` R101). -/
theorem getElem_ctrApply (data : List Byte) (j : Nat) (h : j < data.length) :
    (ctrApply E k n i0 data)[j]'(by simpa using h) =
      data[j] ^^^ (E k (block n (i0 + j / 16)))[j % 16]'(Nat.mod_lt _ (by decide)) := by
  refine (getElem_xorBytes _ _ _ (by simpa using h)).trans ?_
  rw [getElem_keystream _ _ _ _ _ j h]

/-- XORing the difference of two outputs undoes the keystream (`42_ctr_cipher.md` R105). -/
theorem xorBytes_ctrApply (a b : List Byte) (h : a.length = b.length) :
    xorBytes (ctrApply E k n i0 a) (ctrApply E k n i0 b) = xorBytes a b := by
  apply List.ext_getElem
  · simp
  · intro j h1 h2
    have : ∀ x y z : Byte, (x ^^^ z) ^^^ (y ^^^ z) = x ^^^ y := by
      intro x y z
      rw [BitVec.xor_comm y z, BitVec.xor_assoc, ← BitVec.xor_assoc z, BitVec.xor_self, BitVec.zero_xor]
    simp [getElem_xorBytes, ctrApply, h, this]

end Sys2Proof.Machine
end

