-- ==== Sys2Proof/Laws/Commands.lean ====
section
/-! SUPPORT. What the shared parts of a command can do: the checks, the reading of the input, and the completion;
and, once for all five commands, the ways a command can end. -/

namespace Sys2Proof.Machine

open Sys2Proof

/-! ### The loop that reads the input bytes -/

theorem readEach_ok {f : Nat → Except Fault Byte} {g : Nat → Byte} :
    ∀ {ks : List Nat}, (∀ k ∈ ks, f k = .ok (g k)) → readEach f ks = .ok (ks.map g)
  | [], _ => rfl
  | k :: ks, h => by
    rw [readEach, h k (by simp), readEach_ok fun j hj => h j (List.mem_cons_of_mem _ hj)]
    rfl

/-- The loop ends at the first index whose read faults. -/
theorem readEach_error {f : Nat → Except Fault Byte} {e : Fault} (ks : List Nat) (k : Nat) (js : List Nat)
    (hk : ∀ j ∈ ks, ∃ v, f j = .ok v) (he : f k = .error e) : readEach f (ks ++ k :: js) = .error e := by
  induction ks with
  | nil => simp [readEach, he]
  | cons j ks ih =>
    obtain ⟨v, hv⟩ := hk j (by simp)
    rw [List.cons_append, readEach, hv, ih fun i hi => hk i (List.mem_cons_of_mem _ hi)]

theorem length_readEach {f : Nat → Except Fault Byte} :
    ∀ {ks : List Nat} {vs : List Byte}, readEach f ks = .ok vs → vs.length = ks.length
  | [], vs, h => by simp only [readEach, Except.ok.injEq] at h; simp [← h]
  | k :: ks, vs, h => by
    simp only [readEach] at h
    split at h
    · cases h
    · split at h
      · cases h
      · cases h
        simp [length_readEach ‹_›]

theorem range_eq_append_cons {n k : Nat} (h : k < n) :
    ∃ js, List.range n = List.range k ++ k :: js := by
  obtain ⟨d, rfl⟩ := Nat.exists_eq_add_of_lt h
  exact ⟨(List.range d).map (k + 1 + ·), by
    rw [show k + d + 1 = k + (d + 1) by omega, List.range_add, List.range_succ_eq_map]
    simp [Function.comp_def, Nat.add_comm, Nat.add_left_comm]⟩

/-- A loop over `0 .. n-1` ends at the first index whose read faults. -/
theorem readEach_range_error {f : Nat → Except Fault Byte} {e : Fault} {n k : Nat} (h : k < n)
    (hk : ∀ j, j < k → ∃ v, f j = .ok v) (he : f k = .error e) : readEach f (List.range n) = .error e := by
  obtain ⟨js, hjs⟩ := range_eq_append_cons h
  rw [hjs]
  exact readEach_error _ _ _ (fun j hj => hk j (List.mem_range.mp hj)) he

theorem bufRead_ok {b : Buffer} {s : State} {k : Nat} {v : Byte} (h : s.bufByte b k = some v) :
    bufRead b s k = .ok v := by
  simp [bufRead, h]

theorem bufRead_error {b : Buffer} {s : State} {k : Nat} (h : s.bufByte b k = none) :
    bufRead b s k = .error (.unwrittenRead b k) := by
  simp [bufRead, h]

theorem State.Holds.getD {s : State} {b : Buffer} {data : List Byte} (h : s.Holds b data) {k : Nat}
    (hk : k < data.length) : s.bufByte b k = some (data.getD k 0) := by
  rw [h k hk, List.getD_eq_getElem?_getD, List.getElem?_eq_getElem hk]; rfl

theorem map_getD_range (data : List Byte) : (List.range data.length).map (fun k => data.getD k 0) = data := by
  apply List.ext_getElem
  · simp
  · intro k h1 h2
    simp only [List.getElem_map, List.getElem_range]
    rw [List.getD_eq_getElem?_getD, List.getElem?_eq_getElem h2]; rfl

/-- With its message in IN_A, CTRX reads the message. -/
theorem ctrxInput_ok {s : State} {data : List Byte} (h : s.OperandA data) : ctrxInput s = .ok data := by
  rw [ctrxInput, ← h.1, readEach_ok (g := fun k => data.getD k 0), map_getD_range]
  exact fun k hk => bufRead_ok (h.2.getD (List.mem_range.mp hk))

theorem bufReadAligned_ok {b : Buffer} {s : State} {data : List Byte} (h : s.Holds b data) (n k : Nat)
    (hn : data.length ≤ n) (hk : k < n) :
    bufReadAligned b data.length n s k =
      .ok (if n - data.length ≤ k then data.getD (k - (n - data.length)) 0 else 0) := by
  rw [bufReadAligned]
  split
  · exact bufRead_ok (h.getD (by omega))
  · rfl

/-- With its operands in IN_A and IN_B, the analyzer's loop gives `A' ⊕ B'`. -/
theorem diffInput_ok {s : State} {a b : List Byte} (ha : s.OperandA a) (hb : s.OperandB b) :
    diffInput s = .ok (byteDifference a b) := by
  have hn : s.diffLength = max a.length b.length := by rw [State.diffLength, ← ha.1, ← hb.1]
  have hl := length_byteDifference a b
  rw [diffInput, hn, readEach_ok (g := fun k => (byteDifference a b).getD k 0), ← hl, map_getD_range]
  intro k hk
  have hk := List.mem_range.mp hk
  have e : (byteDifference a b).getD k 0 = (byteDifference a b)[k]'(by rw [hl]; exact hk) := by
    rw [List.getD_eq_getElem?_getD, List.getElem?_eq_getElem]; rfl
  have hx : (byteDifference a b)[k]'(by rw [hl]; exact hk) =
      (alignRight (max a.length b.length) a)[k]'(by simp; omega) ^^^
        (alignRight (max a.length b.length) b)[k]'(by simp; omega) := getElem_xorBytes _ _ _ _
  rw [e, hx, getElem_alignRight _ _ (by omega) _ hk, getElem_alignRight _ _ (by omega) _ hk]
  simp only [diffByte, hn]
  rw [← ha.1, ← hb.1, bufReadAligned_ok ha.2 _ _ (by omega) hk, bufReadAligned_ok hb.2 _ _ (by omega) hk]

/-! ### The checks -/

theorem afterChecks_failed {i : Instr} {s : State} {c : ErrCode} (h : failedCheck i s = some c)
    (e : Host.Outcome State Fault Refusal) : afterChecks i s e = .next (s.raiseCmdError c) := by
  rw [afterChecks, h]

theorem afterChecks_passed {i : Instr} {s : State} (h : failedCheck i s = none)
    (e : Host.Outcome State Fault Refusal) : afterChecks i s e = e := by
  rw [afterChecks, h]

theorem withInput_ok {bs : List Byte} {input : Except Fault (List Byte)} (h : input = .ok bs)
    (f : List Byte → State) : withInput input f = .next (f bs) := by
  subst h
  rfl

/-- What passing the length check of KSTR and CTRX says. -/
theorem failedCheck_length {i : Instr} {s : State} (h : failedCheck i s = none) :
    lengthOutOfRange i s = false := by
  unfold failedCheck at h
  split at h
  · cases h
  split at h
  · cases h
  split at h
  · cases h
  split at h
  · cases h
  · exact Bool.eq_false_iff.mpr ‹¬ lengthOutOfRange i s = true›

/-! ### The ways a command ends -/

/-- The bytes a successful command wrote to OUT. -/
inductive Effect (i : Instr) (s : State) : State → Prop where
  /-- CBLK, KSTR, CTRX and XDIF write OUT and OUT_LEN. -/
  | out (bs : List Byte) (hi : i ≠ .hamd) (hlen : bs.length = outBytes i s) :
      Effect i s (s.writeOut bs).complete
  /-- HAMD writes RESULT. -/
  | result (d : Nat) (hi : i = .hamd) (hle : d ≤ 8 * s.diffLength) : Effect i s (s.writeResult d).complete

/-- A command fails a check, or faults on an unwritten byte, or passes every check and takes effect. -/
theorem exec_cases (i : Instr) (s : State) :
    (∃ c, failedCheck i s = some c ∧ exec i s = .next (s.raiseCmdError c)) ∨
    (∃ e, failedCheck i s = none ∧ exec i s = .fault e) ∨
    (∃ t, failedCheck i s = none ∧ exec i s = .next t ∧ Effect i s t) := by
  have hL : s.diffLength = (List.range s.diffLength).length := by simp
  rcases hc : failedCheck i s with _ | c
  · refine .inr ?_
    cases i
    · exact .inr ⟨_, rfl, afterChecks_passed hc _, .out _ (by decide) (by simp [outBytes])⟩
    · exact .inr ⟨_, rfl, afterChecks_passed hc _,
        .out _ (by decide) (by simp [State.keystream, outBytes])⟩
    · rcases hin : ctrxInput s with e | data
      · exact .inl ⟨e, rfl, (afterChecks_passed hc _).trans (by rw [hin]; rfl)⟩
      · have hd : data.length = s.operands.lenA.toNat := by
          simpa using length_readEach hin
        exact .inr ⟨_, rfl, (afterChecks_passed hc _).trans (withInput_ok hin _),
          .out _ (by decide) (by simp [State.keystream, outBytes, hd])⟩
    · rcases hin : diffInput s with e | d
      · exact .inl ⟨e, rfl, (afterChecks_passed hc _).trans (by rw [hin]; rfl)⟩
      · exact .inr ⟨_, rfl, (afterChecks_passed hc _).trans (withInput_ok hin _),
          .out _ (by decide) (by rw [outBytes, hL]; exact length_readEach hin)⟩
    · rcases hin : diffInput s with e | d
      · exact .inl ⟨e, rfl, (afterChecks_passed hc _).trans (by rw [hin]; rfl)⟩
      · refine .inr ⟨_, rfl, (afterChecks_passed hc _).trans (withInput_ok hin _), .result _ rfl ?_⟩
        rw [hL, ← length_readEach hin]
        exact popcountBytes_le d
  · exact .inl ⟨c, rfl, by cases i <;> exact afterChecks_failed hc _⟩

/-- What a next state of a command is: an error completion, or an effect after which every check had passed. -/
theorem exec_next {i : Instr} {s t : State} (h : exec i s = .next t) :
    (∃ c, failedCheck i s = some c ∧ t = s.raiseCmdError c) ∨ (failedCheck i s = none ∧ Effect i s t) := by
  rcases exec_cases i s with ⟨c, hc, e⟩ | ⟨f, _, e⟩ | ⟨u, hc, e, hu⟩
  · exact .inl ⟨c, hc, by rw [e] at h; cases h; rfl⟩
  · rw [e] at h; cases h
  · rw [e] at h; cases h; exact .inr ⟨hc, hu⟩

/-- A failed check is the error completion of its code (`60_exceptions.md` R130). -/
theorem exec_of_failedCheck {i : Instr} {s : State} {c : ErrCode} (h : failedCheck i s = some c) :
    exec i s = .next (errorCompletion s c.code) := by
  cases i <;> exact afterChecks_failed h _

/-- What a command that writes `bs` to OUT and completes leaves. -/
theorem wroteOut_complete (s : State) (bs : List Byte) (h : bs.length < 2 ^ 32) :
    WroteOut s (s.writeOut bs).complete bs where
  completion := ⟨rfl, rfl, rfl, rfl⟩
  bytes := fun k hk => State.bufByte_writeOut s bs k hk
  outLen := by simp only [State.complete_outLen, State.writeOut_outLen, BitVec.toNat_ofNat]; omega
  otherBytes := fun a ha => State.read?_writeOut_outside s bs a ha
  result := rfl
  frame := ⟨rfl, rfl, rfl, rfl, rfl, rfl, rfl, rfl, rfl⟩

/-- What a command that writes RESULT and completes leaves. -/
theorem wroteResult_complete (s : State) (d : Nat) (h : d < 2 ^ 32) : WroteResult s (s.writeResult d).complete d where
  completion := ⟨rfl, rfl, rfl, rfl⟩
  result := by simp only [State.complete_result, State.writeResult_result, BitVec.toNat_ofNat]; omega
  outLen := rfl
  bytes := fun _ => rfl
  frame := ⟨rfl, rfl, rfl, rfl, rfl, rfl, rfl, rfl, rfl⟩

/-- A buffer holds one sequence of a given length. -/
theorem State.Holds.unique {s : State} {b : Buffer} {x y : List Byte} (hx : s.Holds b x) (hy : s.Holds b y)
    (h : x.length = y.length) : x = y := by
  apply List.ext_getElem h
  intro k h1 h2
  simpa using (hx k h1).symm.trans (hy k h2)

/-- CTRX past its checks, with its message in IN_A. -/
theorem exec_ctrx {s : State} {data : List Byte} (h : s.OperandA data) (hc : failedCheck .ctrx s = none) :
    exec .ctrx s = .next (s.writeOut
      (ctrApply Config.cipher s.operands.key s.operands.nonce s.operands.index data)).complete := by
  refine (afterChecks_passed hc _).trans ((withInput_ok (ctrxInput_ok h) _).trans ?_)
  rw [ctrApply, State.keystream, h.1]

/-- XDIF past its checks, with its operands in IN_A and IN_B. -/
theorem exec_xdif {s : State} {a b : List Byte} (ha : s.OperandA a) (hb : s.OperandB b)
    (hc : failedCheck .xdif s = none) : exec .xdif s = .next (s.writeOut (byteDifference a b)).complete :=
  (afterChecks_passed hc _).trans (withInput_ok (diffInput_ok ha hb) _)

/-- HAMD past its checks, with its operands in IN_A and IN_B. -/
theorem exec_hamd {s : State} {a b : List Byte} (ha : s.OperandA a) (hb : s.OperandB b)
    (hc : failedCheck .hamd s = none) : exec .hamd s = .next (s.writeResult (hammingDistance a b)).complete :=
  (afterChecks_passed hc _).trans (withInput_ok (diffInput_ok ha hb) _)

/-- The analyzer's loop ends at the first unwritten byte it reads. -/
theorem diffInput_error {s : State} {f : Fault} (h : AnalyzerFault s f) : diffInput s = .error f := by
  have aligned : ∀ b len j, AlignedReadable s b len j → ∃ v, bufReadAligned b len s.diffLength s j = .ok v := by
    intro b len j hj
    unfold bufReadAligned
    split
    · obtain ⟨v, hv⟩ := Option.ne_none_iff_exists'.mp (hj ‹_›)
      exact ⟨v, bufRead_ok hv⟩
    · exact ⟨0, rfl⟩
  obtain ⟨k, hk, hj, hf⟩ := h
  refine readEach_range_error hk (fun j hjk => ?_) ?_
  · obtain ⟨x, hx⟩ := aligned _ _ _ (hj j hjk).1
    obtain ⟨y, hy⟩ := aligned _ _ _ (hj j hjk).2
    exact ⟨x ^^^ y, by simp only [diffByte, hx, hy]⟩
  · rcases hf with ⟨h1, h2, rfl⟩ | ⟨hA, h1, h2, rfl⟩
    · simp only [diffByte, bufReadAligned, if_pos h1, bufRead_error h2]
    · obtain ⟨x, hx⟩ := aligned _ _ _ hA
      simp only [diffByte, hx]
      simp only [bufReadAligned, if_pos h1, bufRead_error h2]

end Sys2Proof.Machine
end

