-- ==== Sys2Proof/Laws/Step.lean ====
section
/-! SUPPORT. Once and for all, what one step of the machine can be. -/

namespace Sys2Proof.Machine

open Sys2Proof

@[simp] theorem recordFault_next (s t : State) : recordFault s (.next t) = .next t := rfl

@[simp] theorem recordFault_fault (s : State) (f : Fault) :
    recordFault s (.fault f) = .next (s.recordUnwrittenRead f) := rfl

/-- What the engine's step of a command is, in terms of the command: its next state, or its fault recorded. -/
theorem recordFault_exec (i : Instr) (s : State) :
    (∃ t, exec i s = .next t ∧ recordFault s (exec i s) = .next t) ∨
    (∃ f, exec i s = .fault f ∧ recordFault s (exec i s) = .next (s.recordUnwrittenRead f)) := by
  rcases exec_cases i s with ⟨c, _, e⟩ | ⟨f, _, e⟩ | ⟨t, _, e, _⟩
  · exact .inl ⟨_, e, by rw [e]; rfl⟩
  · exact .inr ⟨f, e, by rw [e]; rfl⟩
  · exact .inl ⟨t, e, by rw [e]; rfl⟩

/-- The engine's step: nothing, ILLEGAL_COMMAND, the pending command, or the record of its fault. -/
theorem engineStep_cases (s : State) :
    (s.pending = none ∧ engineStep s = .next s) ∨
    (∃ w e, s.pending = some w ∧ decode s.params.hasBitdiff w = .error e ∧
      engineStep s = .next (s.raiseCmdError .illegalCommand)) ∨
    (∃ w i, s.pending = some w ∧ decode s.params.hasBitdiff w = .ok i ∧
      ((∃ t, exec i s = .next t ∧ engineStep s = .next t) ∨
       (∃ f, exec i s = .fault f ∧ engineStep s = .next (s.recordUnwrittenRead f)))) := by
  unfold engineStep
  split
  · exact .inl ⟨‹_›, rfl⟩
  · split
    · exact .inr (.inl ⟨_, _, ‹_›, ‹_›, rfl⟩)
    · exact .inr (.inr ⟨_, _, ‹_›, ‹_›, recordFault_exec _ _⟩)

/-- The state a step starts from, once the turn it takes is off the schedule. -/
def State.turnTaken (s : State) : State := s.setSchedule s.schedule.tail

@[simp] theorem State.setSchedule_self (s : State) : s.setSchedule s.schedule = s := rfl

@[simp] theorem State.setSchedule_busy (s : State) (r : List Turn) : (s.setSchedule r).busy = s.busy := rfl

/-- With no fault recorded a step is the turn of an agent, or the reset event. -/
theorem step_of_no_record {s : State} (h : s.unwrittenRead = none) : step s = takeTurn s := by
  unfold step advance
  rw [h]

/-- A step stops with the recorded fault, or is the engine's, or the host's, or the reset event. -/
theorem step_cases (s : State) :
    (s.schedule.head? ≠ some .rstN ∧ ∃ f, s.unwrittenRead = some f ∧ step s = .fault f) ∨
    (s.schedule.head? ≠ some .rstN ∧ s.unwrittenRead = none ∧ step s = engineStep s.turnTaken) ∨
    (s.schedule.head? ≠ some .rstN ∧ s.unwrittenRead = none ∧ (s.schedule = [] → s.busy = false) ∧
      step s = .next (hostStep s.turnTaken)) ∨
    (s.schedule.head? = some .rstN ∧ step s = .next s.turnTaken.resetEvent) := by
  by_cases hr : s.schedule.head? = some .rstN
  · obtain ⟨r, h⟩ := List.head?_eq_some_iff.mp hr
    have e : step s = takeTurn s := by unfold step advance; split <;> simp [hr]
    exact .inr (.inr (.inr ⟨hr, by rw [e]; simp [takeTurn, State.turnTaken, h]⟩))
  · rcases hu : s.unwrittenRead with _ | f
    · refine .inr ?_
      rw [step_of_no_record hu]
      unfold takeTurn State.turnTaken
      split
      next r h => exact .inl ⟨hr, rfl, by simp [h]⟩
      next r h => exact .inr (.inl ⟨hr, rfl, by simp [h], by simp [h]⟩)
      next r h => simp [h] at hr
      next h =>
        have e : s.setSchedule s.schedule.tail = s := by cases s; simp_all [State.setSchedule]
        rw [e]
        split
        · exact .inl ⟨hr, rfl, rfl⟩
        · exact .inr (.inl ⟨hr, rfl, fun _ => Bool.eq_false_iff.mpr ‹_›, rfl⟩)
    · exact .inl ⟨hr, f, rfl, by unfold step advance; simp [hu, hr]⟩

end Sys2Proof.Machine
end

