-- ==== Sys2Proof/Laws/Invariant.lean ====
section
/-! SUPPORT. Each kind of change of state keeps the invariant. -/

namespace Sys2Proof.Machine

open Sys2Proof

/-- The invariant reads neither CTRL, the operands, the bus errors, the two agents nor the draws. -/
theorem State.Inv.congr {s t : State} (h : s.Inv) (hp : t.params = s.params) (hs : t.status = s.status)
    (hpend : t.pending = s.pending) (ho : t.outLen = s.outLen) (hr : t.result = s.result)
    (hm : t.mem = s.mem) (hu : t.unwrittenRead = s.unwrittenRead) : t.Inv where
  params_wf := by rw [hp]; exact h.params_wf
  mem_wf := by rw [hm]; exact h.mem_wf
  mem_buffers := by rw [hm, hp]; exact h.mem_buffers
  err_iff := by rw [hs]; exact h.err_iff
  errcode_ok := by rw [hs]; exact h.errcode_ok
  busy_clear := by rw [State.busy, hpend, hs]; exact h.busy_clear
  fault_busy := by rw [State.busy, hpend, hu]; exact h.fault_busy
  outLen_le := by rw [ho, hp]; exact h.outLen_le
  out_written := by
    have e : ∀ b k, t.bufByte b k = s.bufByte b k := fun b k => by unfold State.bufByte; rw [hm]
    rw [ho]
    exact fun k hk => by rw [e]; exact h.out_written k hk
  result_le := by rw [hr, hp]; exact h.result_le

theorem legalErrcode_code (c : ErrCode) : legalErrcode c.code := by cases c <;> decide

theorem ErrCode.code_ne_zero (c : ErrCode) : c.code ≠ 0 := by cases c <;> decide

theorem State.Inv.raiseCmdError {s : State} (h : s.Inv) (hu : s.unwrittenRead = none) (c : ErrCode) :
    (s.raiseCmdError c).Inv where
  params_wf := h.params_wf
  mem_wf := h.mem_wf
  mem_buffers := h.mem_buffers
  err_iff := by simpa using c.code_ne_zero
  errcode_ok := legalErrcode_code c
  busy_clear := by simp
  fault_busy := by simp [hu]
  outLen_le := h.outLen_le
  out_written := h.out_written
  result_le := h.result_le

theorem State.Inv.complete {s : State} (h : s.Inv) (hu : s.unwrittenRead = none) : s.complete.Inv where
  params_wf := h.params_wf
  mem_wf := h.mem_wf
  mem_buffers := h.mem_buffers
  err_iff := by simp
  errcode_ok := .inl rfl
  busy_clear := by simp
  fault_busy := by simp [hu]
  outLen_le := h.outLen_le
  out_written := h.out_written
  result_le := h.result_le

theorem State.Inv.accept {s : State} (h : s.Inv) (w : Word) : (s.accept w).Inv where
  params_wf := h.params_wf
  mem_wf := h.mem_wf
  mem_buffers := h.mem_buffers
  err_iff := by simp
  errcode_ok := .inl rfl
  busy_clear := by simp
  fault_busy := by simp
  outLen_le := h.outLen_le
  out_written := h.out_written
  result_le := h.result_le

theorem State.Inv.writeOut {s : State} (h : s.Inv) (bs : List Byte) (hl : bs.length ≤ s.params.bufBytes) :
    (s.writeOut bs).Inv := by
  have hw := h.params_wf.2.2
  have ho : (s.writeOut bs).outLen.toNat = bs.length := by
    rw [State.writeOut_outLen, BitVec.toNat_ofNat, Nat.mod_eq_of_lt (by omega)]
  exact {
    params_wf := h.params_wf
    mem_wf := Memory.wf_writeBytes h.mem_wf _ _
    mem_buffers := by
      intro c hc
      rcases Memory.mem_writeBytes hc with hc | hc
      · simp only [Buffer.base, State.writeOut_params] at hc ⊢
        exact .inr (.inr (by omega))
      · exact h.mem_buffers c hc
    err_iff := h.err_iff
    errcode_ok := h.errcode_ok
    busy_clear := h.busy_clear
    fault_busy := h.fault_busy
    outLen_le := by rw [ho]; exact hl
    out_written := by
      intro k hk
      rw [State.bufByte_writeOut s bs k (by omega)]
      simp
    result_le := h.result_le }

theorem State.Inv.writeResult {s : State} (h : s.Inv) (d : Nat) (hd : d ≤ 8 * s.params.bufBytes) :
    (s.writeResult d).Inv where
  params_wf := h.params_wf
  mem_wf := h.mem_wf
  mem_buffers := h.mem_buffers
  err_iff := h.err_iff
  errcode_ok := h.errcode_ok
  busy_clear := h.busy_clear
  fault_busy := h.fault_busy
  outLen_le := h.outLen_le
  out_written := h.out_written
  result_le := by
    rw [State.writeResult_result, BitVec.toNat_ofNat]
    exact le_trans (Nat.mod_le _ _) hd

/-- Past the checks, a command's output fits in OUT, and its operands in their buffers. -/
theorem lengths_of_passed {i : Instr} {s : State} (h : failedCheck i s = none) (hw : s.params.wf) :
    outBytes i s ≤ s.params.bufBytes ∧ (i = .hamd → s.diffLength ≤ s.params.bufBytes) := by
  have hl := failedCheck_length h
  have h16 := hw.2.1
  cases i <;> simp [lengthOutOfRange, outBytes, State.diffLength] at hl ⊢ <;> omega

/-- A command keeps the invariant. -/
theorem State.Inv.of_exec {i : Instr} {s t : State} (h : s.Inv) (hu : s.unwrittenRead = none)
    (e : exec i s = .next t) : t.Inv := by
  rcases exec_next e with ⟨c, _, rfl⟩ | ⟨hc, he⟩
  · exact h.raiseCmdError hu c
  · have hl := lengths_of_passed hc h.params_wf
    cases he with
    | out bs hi hlen => exact (h.writeOut bs (hlen ▸ hl.1)).complete hu
    | result d hi hle => exact (h.writeResult d (by have := hl.2 hi; omega)).complete hu

theorem State.Inv.dropped {s : State} (h : s.Inv) : State.Inv { s with status := s.status.dropped } where
  params_wf := h.params_wf
  mem_wf := h.mem_wf
  mem_buffers := h.mem_buffers
  err_iff := h.err_iff
  errcode_ok := h.errcode_ok
  busy_clear := h.busy_clear
  fault_busy := h.fault_busy
  outLen_le := h.outLen_le
  out_written := h.out_written
  result_le := h.result_le

theorem State.Inv.writeStatus {s : State} (h : s.Inv) (w : Word) :
    State.Inv { s with status := s.status.write w } where
  params_wf := h.params_wf
  mem_wf := h.mem_wf
  mem_buffers := h.mem_buffers
  err_iff := by
    have := h.err_iff
    rw [Status.write_err, Status.write_errcode]
    cases w.getLsbD 2 <;> simp [this]
  errcode_ok := by
    rw [Status.write_errcode]
    cases w.getLsbD 2
    · exact h.errcode_ok
    · exact .inl rfl
  busy_clear := fun hb => by
    have hb := h.busy_clear hb
    exact ⟨by simp [hb.1], by simp [hb.2]⟩
  fault_busy := h.fault_busy
  outLen_le := h.outLen_le
  out_written := h.out_written
  result_le := h.result_le

theorem State.Inv.setBufLanes {s : State} (h : s.Inv) {b : Buffer} {k : Nat} (w : Word) (hk : k < s.params.bufBytes)
    (h4 : k % 4 = 0) : (s.setBufLanes b k w).Inv where
  params_wf := h.params_wf
  mem_wf := Memory.wf_writeBytes h.mem_wf _ _
  mem_buffers := by
    intro c hc
    have hw := h.params_wf.1
    rcases Memory.mem_writeBytes hc with hc | hc
    · simp only [List.length_cons, List.length_nil, State.setBufLanes_params] at hc ⊢
      unfold inBuffers
      cases b <;> simp only [Buffer.base] at hc <;> omega
    · exact h.mem_buffers c hc
  err_iff := h.err_iff
  errcode_ok := h.errcode_ok
  busy_clear := h.busy_clear
  fault_busy := h.fault_busy
  outLen_le := h.outLen_le
  out_written := by
    intro k' hk'
    have := h.out_written k' hk'
    rw [State.bufByte, State.setBufLanes_mem, Memory.read?_writeBytes]
    split
    · rw [List.getElem?_eq_getElem (by simp only [List.length_cons, List.length_nil] at *; omega)]
      simp
    · exact this
  result_le := h.result_le

/-- A host write keeps the invariant. -/
theorem State.Inv.writeReg {s : State} (h : s.Inv) {off : Nat} {r : Reg} (hr : regAt s.params off = some r)
    (h4 : off % 4 = 0) (w : Word) : (writeReg r w s).Inv := by
  cases r with
  | buf b k =>
    obtain ⟨hk, _, hm⟩ := regAt_eq_buf hr
    cases b with
    | out => exact h
    | inA => exact State.guarded_induct (P := State.Inv) h.dropped fun _ => h.setBufLanes w hk (by omega)
    | inB => exact State.guarded_induct (P := State.Inv) h.dropped fun _ => h.setBufLanes w hk (by omega)
  | status => exact h.writeStatus w
  | cmd => exact State.guarded_induct (P := State.Inv) h.dropped fun _ => h.accept w
  | id => exact h
  | caps => exact h
  | outLen => exact h
  | result => exact h
  | ctrl => exact h.congr rfl rfl rfl rfl rfl rfl rfl
  | _ =>
    exact State.guarded_induct (P := State.Inv) h.dropped fun _ => h.congr rfl rfl rfl rfl rfl rfl rfl

/-- A host access keeps the invariant. -/
theorem State.Inv.busEffect {s : State} (h : s.Inv) (t : Transfer) : (busEffect t s).Inv := by
  rcases busEffect_cases t s with e | ⟨r, _, e⟩ | ⟨r, w, ht, e⟩
  · rw [e]; exact h.congr rfl rfl rfl rfl rfl rfl rfl
  · rw [e]; exact h.congr rfl rfl rfl rfl rfl rfl rfl
  · obtain ⟨hwf, hr⟩ := target_eq_some ht
    rw [e]
    exact h.writeReg hr hwf.2 w

/-- The record of a fault, with the command still pending, keeps the invariant. -/
theorem State.Inv.recordUnwrittenRead {s : State} (h : s.Inv) (hb : s.busy = true) (f : Fault) :
    (s.recordUnwrittenRead f).Inv where
  params_wf := h.params_wf
  mem_wf := h.mem_wf
  mem_buffers := h.mem_buffers
  err_iff := h.err_iff
  errcode_ok := h.errcode_ok
  busy_clear := h.busy_clear
  fault_busy := fun _ => hb
  outLen_le := h.outLen_le
  out_written := h.out_written
  result_le := h.result_le

theorem State.Inv.setSchedule {s : State} (h : s.Inv) (r : List Turn) : (s.setSchedule r).Inv :=
  h.congr rfl rfl rfl rfl rfl rfl rfl

theorem State.Inv.hostStep {s : State} (h : s.Inv) : (hostStep s).Inv := by
  rcases hostStep_cases s with e | ⟨t, m, e⟩
  · rw [e]; exact h
  · rw [e]; exact (h.busEffect t).congr rfl rfl rfl rfl rfl rfl rfl

theorem State.Inv.resetEvent {s : State} (h : s.Inv) : s.resetEvent.Inv where
  params_wf := h.params_wf
  mem_wf := List.Pairwise.nil
  mem_buffers := by simp
  err_iff := ⟨fun _ => rfl, fun _ => rfl⟩
  errcode_ok := .inl rfl
  busy_clear := by simp [State.busy]
  fault_busy := by simp
  outLen_le := by simp
  out_written := by simp
  result_le := by simp

end Sys2Proof.Machine
end

