-- ==== Sys2Proof/Laws/PerInstr.lean ====
section
/-! SUPPORT. Facts about every command as syntax, one lemma per constructor. -/

namespace Sys2Proof.Laws.EncodedWord

open Sys2Proof

/-- The word of a command: MBZ is 0, OP is the opcode of the map, and an instance with the analyzer decodes it back
(`30_encoding.md` R69, R70, R75). -/
def Statement (i : Instr) : Prop :=
  mbzField (encode i) = 0 ∧ opField (encode i) = opcode i ∧ decode true (encode i) = .ok i

theorem cblk : Statement .cblk := ⟨rfl, rfl, rfl⟩

theorem kstr : Statement .kstr := ⟨rfl, rfl, rfl⟩

theorem ctrx : Statement .ctrx := ⟨rfl, rfl, rfl⟩

theorem xdif : Statement .xdif := ⟨rfl, rfl, rfl⟩

theorem hamd : Statement .hamd := ⟨rfl, rfl, rfl⟩

end Sys2Proof.Laws.EncodedWord
end

