-- ==== Sys2Proof/Tests/Slice0.lean ====
section
/-! SUPPORT. Tests with results worked from the spec's words and vectors (`95_test_vectors.md`), and a witness for the
hypotheses of each obligation that has some. -/

namespace Sys2Proof.Tests

open Sys2Proof Sys2Proof.Machine

/-! ### Well-formedness -/

theorem test_wf_default_params : Config.defaultParams.wf := by decide

theorem test_illformed_params_below_least : ¬ Params.wf { bufBytes := 0, hasBitdiff := true } := by decide

theorem test_illformed_params_not_a_multiple : ¬ Params.wf { bufBytes := 24, hasBitdiff := true } := by decide

theorem test_illformed_params_above_greatest : ¬ Params.wf { bufBytes := 65552, hasBitdiff := true } := by decide

theorem test_wf_params_bounds :
    Params.wf { bufBytes := 16, hasBitdiff := false } ∧ Params.wf { bufBytes := 65536, hasBitdiff := true } := by decide

theorem test_illformed_xdif_without_unit : Instr.wf false .xdif = false := by decide

theorem test_illformed_hamd_without_unit : Instr.wf false .hamd = false := by decide

theorem test_illformed_transfer_size : ¬ Transfer.wf { off := 0x14, size := .one, dir := .write 0 } := by decide

theorem test_illformed_transfer_offset : ¬ Transfer.wf { off := 0x15, size := .four, dir := .read } := by decide

theorem test_illformed_memory_order : ¬ Memory.wf [(0x10001, 0), (0x10000, 0)] := by decide

/-! ### Decode: words written out from the table of `30_encoding.md` R70 -/

theorem test_decode_cblk : decode true 0b00000000000000000000000000000001 = .ok .cblk := by decide

theorem test_decode_kstr : decode true 0b00000000000000000000000000000010 = .ok .kstr := by decide

theorem test_decode_ctrx : decode true 0b00000000000000000000000000000011 = .ok .ctrx := by decide

theorem test_decode_xdif : decode true 0b00000000000000000000000000000100 = .ok .xdif := by decide

theorem test_decode_hamd : decode true 0b00000000000000000000000000000101 = .ok .hamd := by decide

theorem test_decodeTableWord :
    decodeTableWord 32 4 = some .xdif ∧ decodeTableWord 32 0x104 = none ∧ decodeTableWord 8 0x104 = some .xdif := by
  decide

/-- Vectors ST1 to ST5. -/
theorem test_decode_illegal :
    decode true 0x00000000 = .error .reservedOp ∧ decode true 0x00000006 = .error .reservedOp ∧
    decode true 0x000000FF = .error .reservedOp ∧ decode true 0x00000101 = .error .upperBitsNotZero ∧
    decode true 0x80000001 = .error .upperBitsNotZero := by decide

theorem test_decode_without_bitdiff :
    decode false 0x00000003 = .ok .ctrx ∧ decode false 0x00000004 = .error .noBitdiff ∧
    decode false 0x00000005 = .error .noBitdiff := by decide

/-! ### States for the tests -/

/-- The base state of `95_test_vectors.md` §0. -/
def base : State :=
  { State.reset with operands := { Operands.reset with keyLen := 16, nonceLen := 16 } }

/-- The base state with the two input buffers loaded from index 0, and their lengths. -/
def loaded (a b : List Byte) : State :=
  { base with
    operands := { base.operands with lenA := BitVec.ofNat 32 a.length, lenB := BitVec.ofNat 32 b.length }
    mem := Memory.writeBytes (Memory.writeBytes [] 0x10000 a) 0x20000 b }

/-- The base state with a nonce and a base index. -/
def counterAt (n : Bytes16) (lo hi : Word) : State :=
  { base with operands := { base.operands with nonce := n, indexLo := lo, indexHi := hi } }

/-- The base state with a length for KSTR. -/
def lengthA (l : Word) : State := { base with operands := { base.operands with lenA := l } }

/-- A state with a word in the latch. -/
def pend (w : Word) (s : State) : State := { s with pending := some w }

/-- TOYXOR, the test double of `95_test_vectors.md`. -/
def toyxor : BlockCipher := fun k b => ⟨(xorBytes k.toList b.toList).toArray, by simp [xorBytes]⟩

/-- `KT` of `95_test_vectors.md` §2.2. -/
def kt : Bytes16 := #v[0, 1, 2, 3, 4, 5, 6, 7, 8, 9, 10, 11, 12, 13, 14, 15]

/-- `NT` of `95_test_vectors.md` §2.2. -/
def nt : Bytes16 :=
  #v[0xf0, 0xf1, 0xf2, 0xf3, 0xf4, 0xf5, 0xf6, 0xf7, 0xf8, 0xf9, 0xfa, 0xfb, 0xfc, 0xfd, 0xfe, 0xff]

/-- `zeros(8) ‖ FF×8`. -/
def lowOnes : Bytes16 := #v[0, 0, 0, 0, 0, 0, 0, 0, 255, 255, 255, 255, 255, 255, 255, 255]

/-- The outcome is a next state in which `p` holds. -/
def nextHas (o : Host.Outcome State Fault Refusal) (p : State → Bool) : Bool :=
  match o with
  | .next t => p t
  | .fault _ => false
  | .refused _ => false

/-- The outcome is this fault. -/
def faultIs (o : Host.Outcome State Fault Refusal) (f : Fault) : Bool :=
  match o with
  | .next _ => false
  | .fault g => g == f
  | .refused _ => false

/-- The first bytes of OUT are these, and OUT_LEN is their number. -/
def outIs (bs : List Byte) (t : State) : Bool :=
  (List.range bs.length).map (t.bufByte .out) == bs.map some && t.outLen == BitVec.ofNat 32 bs.length

/-- The word STATUS reads as. -/
def statusIs (w : Word) (t : State) : Bool := (busResponse (readAt 0x0000C) t).data == w

/-! ### The commands -/

/-- CB9. -/
theorem test_cblk_both_halves_carry :
    nextHas (exec .cblk (counterAt lowOnes 0xFFFFFFFF 0xFFFFFFFF))
      (outIs [0, 0, 0, 0, 0, 0, 0, 1, 255, 255, 255, 255, 255, 255, 255, 254]) = true := by decide

/-- CB11. -/
theorem test_cblk_nonce_length :
    nextHas (exec .cblk { base with operands := { base.operands with nonceLen := 15 } }) (statusIs 0x00000206) = true := by
  decide

/-- KS4, with KS5's second block cut at 17 bytes. -/
theorem test_kstr_second_block_starts :
    nextHas (kstrWith toyxor { base with operands := { base.operands with key := kt, nonce := nt, lenA := 17 } })
      (outIs (List.replicate 17 0xf0)) = true := by decide

/-- KS19. -/
theorem test_kstr_key_check_is_first :
    nextHas (exec .kstr { base with operands := { base.operands with keyLen := 0, lenA := 5000 } })
      (statusIs 0x00000106) = true := by decide

/-- CX1. -/
theorem test_ctrx_partial_second_block :
    nextHas (ctrxWith toyxor
      (let s := loaded [0x00, 0x11, 0x22, 0x33, 0x44, 0x55, 0x66, 0x77, 0x88, 0x99, 0xaa, 0xbb, 0xcc, 0xdd, 0xee, 0xff,
        0x00, 0x11] []
       { s with operands := { s.operands with key := kt } }))
      (outIs [0x00, 0x10, 0x20, 0x30, 0x40, 0x50, 0x60, 0x70, 0x80, 0x90, 0xa0, 0xb0, 0xc0, 0xd0, 0xe0, 0xf0,
        0x00, 0x10]) = true := by decide

/-- CX12. -/
theorem test_ctrx_unwritten_read :
    faultIs (exec .ctrx { loaded [1, 2, 3, 4] [] with operands := (lengthA 5).operands }) (.unwrittenRead .inA 4) = true := by
  decide

/-- XD9. -/
theorem test_xdif_right_alignment :
    nextHas (exec .xdif (loaded [0xaa, 0xbb] [0x01, 0x00, 0x00])) (outIs [0x01, 0xaa, 0xbb]) = true := by decide

/-- XD12. -/
theorem test_xdif_absent :
    nextHas (step (pend 4 { loaded [1] [2] with params := { bufBytes := 4096, hasBitdiff := false } }))
      (statusIs 0x00000606) = true := by decide

/-- HD7. -/
theorem test_hamd_counts_bits :
    nextHas (exec .hamd (loaded [0x12, 0x34, 0x56] [0x00, 0x00, 0xff])) (fun t => t.result == 9) = true := by decide

/-- HD2, where a left-aligned comparison gives 0. -/
theorem test_hamd_right_alignment :
    nextHas (exec .hamd (loaded [0x01, 0x00] [0x01])) (fun t => t.result == 2 && t.outLen == 0) = true := by decide

/-! ### Status, bus and host -/

/-- ST8 and ST9: the state after CB11, with bit 2 and with bit 1 written. -/
theorem test_status_write :
    let s : State := { base with status := { done := true, err := true, werr := false, errcode := 2 } }
    statusIs 0x00000002 (busEffect (writeAt 0x0000C 4) s) = true ∧
    statusIs 0x00000204 (busEffect (writeAt 0x0000C 2) s) = true := by decide

/-- ST11, its last step. -/
theorem test_dropped_write_then_engine :
    nextHas (step (busEffect (writeAt 0x0001C 5) (pend 1 base))) (fun t => statusIs 0x0000000A t && t.operands.lenA == 0) =
      true := by decide

/-- CX11 in a whole step, and the reset event after it. -/
theorem test_unwritten_read_is_recorded_and_reset :
    nextHas (step { pend 3 (lengthA 4) with schedule := [.engine, .rstN] }) (fun t =>
      t.unwrittenRead == some (.unwrittenRead .inA 0) && t.pending == some 3 && statusIs 0x00000001 t &&
      nextHas (step t) (fun u => u.unwrittenRead == none && u.pending == none)) = true := by decide

/-- BV17: LEN_A reads as it stands while BUSY = 1. -/
theorem test_len_reads_while_busy :
    busResponse (readAt 0x0001C) (pend 1 (lengthA 5)) = { data := 5, buserr := false } := by decide

/-- Program P4's `rdx KEY_LEN, 0x10`, with a constant that it meets and one that it does not. -/
theorem test_rdx_check :
    (hostOp (.rdx 0x00014 0x10) [] base).master.testFailed = false ∧
    (hostOp (.rdx 0x00014 0x11) [] base).master.testFailed = true := by decide

/-- BV2 and BV3. -/
theorem test_caps :
    busResponse (readAt 0x00004) State.reset = { data := 0x01001000, buserr := false } ∧
    busResponse (readAt 0x00004) (State.resetWith { bufBytes := 65536, hasBitdiff := false }) =
      { data := 0x00010000, buserr := false } := by decide

/-- BV6: the nonce integer 1. -/
theorem test_nonce_lanes :
    busResponse (readAt 0x0005C) (counterAt #v[0, 0, 0, 0, 0, 0, 0, 0, 0, 0, 0, 0, 0, 0, 0, 1] 0 0) =
      { data := 0x01000000, buserr := false } := by decide

/-- BV11 to BV13. -/
theorem test_bus_errors :
    busResponse { off := 0x14, size := .one, dir := .write 0 } base = { data := 0, buserr := true } ∧
    busResponse (writeAt 0x15 0) base = { data := 0, buserr := true } ∧
    busResponse (readAt 0x0FFFC) base = { data := 0, buserr := true } ∧
    busResponse (readAt 0x11000) base = { data := 0, buserr := true } := by decide

/-- BV14: the last word of IN_A. -/
theorem test_last_word_of_buffer :
    busResponse (readAt 0x10FFC) (busEffect (writeAt 0x10FFC 0xA5A5A5A5) base) =
      { data := 0xA5A5A5A5, buserr := false } := by decide

/-- HR3, HR4, HR7, HR8 and HR10. -/
theorem test_corruptor :
    maskBytes 255 = [0x00, 0xff] ∧ maskBytes 65535 = [0x00, 0xff, 0xff] ∧
    corrupt [0xaa, 0xbb, 0xcc] 255 = [0xaa, 0xbb, 0x33] ∧ corrupt [0xaa, 0xbb] 0x10000 = [0xaa, 0xbb] ∧
    corruptInt [0xaa] (-1) = .error .invalidCorruptionValue := by decide

/-- The packing of `ldkey KT`, program P2 line 1. -/
theorem test_ldkey_expansion :
    ldkey kt = [wr 0x00040 0x03020100, wr 0x00044 0x07060504, wr 0x00048 0x0B0A0908, wr 0x0004C 0x0F0E0D0C] := by decide

/-! ### Witnesses: states that meet the hypotheses of the obligations -/

/-- The state `s` with the turns `r` fixed. -/
def turns (r : List Turn) (s : State) : State := { s with schedule := r }

/-- An instance without the analyzer. -/
def noUnit : Params := { bufBytes := 16, hasBitdiff := false }

/-- `P` holds of the outcome's next state. -/
abbrev NextWith (o : Host.Outcome State Fault Refusal) (p : State → Prop) : Prop := ∃ t, o = .next t ∧ p t

/-- A word of this command is pending in `s`. -/
abbrev pendingIn (s : State) (w : Word) (i : Instr) : Prop :=
  s.pending = some w ∧ decode s.params.hasBitdiff w = .ok i

theorem hyp_DecodeOkIffEncodedCommand :
    (decode true 0x000000FF = .error .reservedOp ∧ decode true 0x00000100 = .error .upperBitsNotZero) ∧
    (decode true 0x00000005 = .ok .hamd ∧ decode true 0x00000006 = .error .reservedOp) ∧
    decode false 0x00000004 = .error .noBitdiff := by decide

theorem hyp_DecodeOfEncode : Instr.wf false .ctrx = true ∧ Instr.wf true .hamd = true := by decide

/-- Both ways a command can end, and an illegal word. -/
theorem hyp_StepExecutesPendingCommand :
    (pendingIn (pend 5 base) 5 .hamd ∧ (pend 5 base).unwrittenRead = none ∧ (pend 5 base).schedule = [] ∧
      (turns [.engine, .host] (pend 5 base)).schedule = .engine :: [.host] ∧
      NextWith (exec .hamd (pend 5 base)) (fun t => t.status.done = true)) ∧
    (pendingIn (pend 5 (lengthA 1)) 5 .hamd ∧ exec .hamd (pend 5 (lengthA 1)) = .fault (.unwrittenRead .inA 0)) ∧
    ((pend 6 base).pending = some 6 ∧ decode (pend 6 base).params.hasBitdiff 6 = .error .reservedOp ∧
      (pend 6 base).unwrittenRead = none ∧ (turns [.engine] (pend 6 base)).schedule = .engine :: []) :=
  ⟨⟨by decide, rfl, rfl, rfl, ⟨_, rfl, rfl⟩⟩, ⟨by decide, rfl⟩, by decide⟩

theorem hyp_StepRunsFetchedWord :
    ((5 : Nat) < 2 ^ 32 ∧ decode base.params.hasBitdiff (BitVec.ofNat 32 5) = .ok .hamd) ∧
    NextWith (exec .hamd (pend 5 base)) (fun t => t.status.done = true) ∧
    exec .hamd (pend 5 (lengthA 1)) = .fault (.unwrittenRead .inA 0) :=
  ⟨by decide, ⟨_, rfl, rfl⟩, rfl⟩

theorem hyp_StepRunsHostOperation :
    (turns [.host, .engine] base).schedule = .host :: [.engine] ∧ base.schedule = [] ∧
    base.pending = none ∧ base.unwrittenRead = none := by decide

theorem hyp_EngineIdleWithoutCommand :
    (turns [.engine] base).pending = none ∧ (turns [.engine] base).unwrittenRead = none ∧
    (turns [.engine] base).schedule = .engine :: [] := by decide

/-- The four failing checks, each with the ones before it passed and the length at its boundary, and a command that
passes all of them. -/
theorem hyp_FirstFailedCheckIsReported :
    ((pend 0x106 base).pending = some 0x106 ∧
      decode (pend 0x106 base).params.hasBitdiff 0x106 = .error .upperBitsNotZero) ∧
    (pendingIn (pend 2 State.reset) 2 .kstr ∧ (pend 2 State.reset).operands.keyLen ≠ 16) ∧
    (pendingIn (pend 1 State.reset) 1 .cblk ∧ (pend 1 State.reset).operands.nonceLen ≠ 16) ∧
    (pendingIn (pend 2 (lengthA 4097)) 2 .kstr ∧ (pend 2 (lengthA 4097)).operands.keyLen = 16 ∧
      (pend 2 (lengthA 4097)).operands.nonceLen = 16 ∧
      (pend 2 (lengthA 4097)).params.bufBytes < (pend 2 (lengthA 4097)).operands.lenA.toNat) ∧
    (pendingIn (pend 2 (lengthA 4096)) 2 .kstr ∧ (pend 2 (lengthA 4096)).operands.keyLen = 16 ∧
      (pend 2 (lengthA 4096)).operands.nonceLen = 16 ∧
      ¬ (pend 2 (lengthA 4096)).params.bufBytes < (pend 2 (lengthA 4096)).operands.lenA.toNat) := by decide

/-- A state with a record, with no turn fixed and with the reset event next. -/
theorem hyp_OnlyResetFollowsUnwrittenRead :
    let s : State := { pend 3 (lengthA 4) with unwrittenRead := some (.unwrittenRead .inA 0) }
    s.unwrittenRead = some (.unwrittenRead .inA 0) ∧ s.schedule.head? ≠ some .rstN ∧
    (turns [.rstN] s).schedule = .rstN :: [] := by decide

theorem hyp_FailedCommandChangesOnlyStatus :
    NextWith (exec .kstr State.reset) (fun t => t.status.err = true) ∧
    NextWith (exec .xdif (loaded [1, 2] [3])) (fun t => t.status.err = false) :=
  ⟨⟨_, rfl, rfl⟩, ⟨_, rfl, rfl⟩⟩

theorem hyp_CommandFrame :
    NextWith (exec .kstr (lengthA 17)) (fun t => t.pending = none) ∧ NextWith (exec .hamd (loaded [1] [2])) (fun t => t.result = 2) :=
  ⟨⟨_, rfl, rfl⟩, ⟨_, rfl, rfl⟩⟩

/-- The last index of each input buffer, and the first unwritten one. -/
theorem hyp_FaultNamesUnwrittenInputByte :
    exec .ctrx { loaded [1, 2, 3] [] with operands := (lengthA 4).operands } = .fault (.unwrittenRead .inA 3) ∧
    exec .hamd { loaded [1] [] with operands := { base.operands with lenA := 1, lenB := 1 } } =
      .fault (.unwrittenRead .inB 0) := ⟨rfl, rfl⟩

theorem hyp_CblkWritesCounterBlock :
    State.reset.operands.nonceLen ≠ 16 ∧ (counterAt lowOnes 1 0).operands.nonceLen = 16 := by decide

theorem hyp_CblkAtIndexZeroWritesNonce :
    (counterAt lowOnes 0 0).operands.nonceLen = 16 ∧ (counterAt lowOnes 0 0).operands.indexLo = 0 ∧
    (counterAt lowOnes 0 0).operands.indexHi = 0 := by decide

theorem hyp_KstrWritesKeystream :
    State.reset.operands.keyLen ≠ 16 ∧
    (lengthA 4097).params.bufBytes < (lengthA 4097).operands.lenA.toNat ∧
    (lengthA 4096).operands.keyLen = 16 ∧ (lengthA 4096).operands.nonceLen = 16 ∧
    (lengthA 4096).operands.lenA.toNat ≤ (lengthA 4096).params.bufBytes ∧
    beInt (block (lengthA 17).operands.nonce 1).toList =
      (beInt (lengthA 17).operands.nonce.toList + ((lengthA 17).operands.index + 16 / 16)) % 2 ^ 128 := by decide

theorem hyp_KstrOutputsArePrefixConsistent :
    (lengthA 16).operands.key = (lengthA 17).operands.key ∧
    (lengthA 16).operands.lenA.toNat ≤ (lengthA 17).operands.lenA.toNat ∧
    NextWith (exec .kstr (lengthA 16)) (fun t => t.status.err = false) ∧
    NextWith (exec .kstr (lengthA 17)) (fun t => t.status.err = false) :=
  ⟨rfl, by decide, ⟨_, rfl, rfl⟩, ⟨_, rfl, rfl⟩⟩

theorem hyp_KstrChunksJoin :
    let s := lengthA 33
    let s' : State := { lengthA 17 with operands := { (lengthA 17).operands with indexLo := 1 } }
    s'.operands.index = s.operands.index + 1 ∧ 16 * 1 + s'.operands.lenA.toNat = s.operands.lenA.toNat ∧
    NextWith (exec .kstr s) (fun t => t.status.err = false) ∧ NextWith (exec .kstr s') (fun t => t.status.err = false) :=
  ⟨by decide, by decide, ⟨_, rfl, rfl⟩, ⟨_, rfl, rfl⟩⟩

theorem hyp_CtrxXorsMessageWithKeystream :
    (loaded [0x63, 0x6f] []).OperandA [0x63, 0x6f] ∧ (loaded [] []).OperandA [] ∧
    (loaded [0x63, 0x6f] []).operands.lenA.toNat ≤ (loaded [0x63, 0x6f] []).params.bufBytes ∧
    (lengthA 1).bufByte .inA 0 = none := by
  unfold State.OperandA State.Holds; decide

theorem operandA_alone (x : Byte) : (loaded [x] []).OperandA [x] :=
  ⟨rfl, fun k h => by obtain rfl : k = 0 := by simpa using h
                      rfl⟩

theorem operandA_one (x y : Byte) : (loaded [x] [y]).OperandA [x] :=
  ⟨rfl, fun k h => by obtain rfl : k = 0 := by simpa using h
                      rfl⟩

theorem operandB_one (x y : Byte) : (loaded [x] [y]).OperandB [y] :=
  ⟨rfl, fun k h => by obtain rfl : k = 0 := by simpa using h
                      rfl⟩

/-- CTRX of a message of one byte leaves some one byte in OUT. -/
theorem ctrx_one (x : Byte) :
    ∃ (t : State) (c : Byte), exec .ctrx (loaded [x] []) = .next t ∧ t.status.err = false ∧ t.Holds .out [c] := by
  have hl (k n : Bytes16) (i : Nat) : (ctrApply Config.cipher k n i [x]).length = 1 := by
    simp [ctrApply, xorBytes, length_keystream]
  obtain ⟨c, hc⟩ := List.length_eq_one_iff.mp (hl _ _ _)
  have h := exec_ctrx (operandA_alone x) rfl
  rw [hc] at h
  exact ⟨_, c, h, rfl, (wroteOut_complete (loaded [x] []) [c] (by simp)).bytes⟩

theorem hyp_CtrxTwiceRestoresMessage :
    ∃ (t s' : State) (c : List Byte), (loaded [0x63] []).OperandA [0x63] ∧
      exec .ctrx (loaded [0x63] []) = .next t ∧ t.status.err = false ∧ c.length = 1 ∧ t.Holds .out c ∧
      s'.params = (loaded [0x63] []).params ∧ s'.operands = (loaded [0x63] []).operands ∧ s'.Holds .inA c := by
  obtain ⟨t, c, ht, he, hc⟩ := ctrx_one 0x63
  exact ⟨t, loaded [c] [], [c], operandA_alone _, ht, he, rfl, hc, rfl, rfl, (operandA_alone c).2⟩

theorem hyp_CtrxKeepsBitDifferences :
    (loaded [0x63, 0x6f] []).OperandA [0x63, 0x6f] ∧ (loaded [0x63, 0x6e] []).OperandA [0x63, 0x6e] ∧
    NextWith (exec .ctrx (loaded [0x63, 0x6f] [])) (fun t => t.status.err = false) ∧
    NextWith (exec .ctrx (loaded [0x63, 0x6e] [])) (fun t => t.status.err = false) :=
  ⟨by unfold State.OperandA State.Holds; decide, by unfold State.OperandA State.Holds; decide, ⟨_, rfl, rfl⟩, ⟨_, rfl, rfl⟩⟩

/-- Both operands, an absent unit, a length too great, and the first unwritten byte. -/
theorem hyp_XdifWritesByteDifference :
    ((loaded [1, 0] [1]).params.hasBitdiff = true ∧ ¬ AnalyzerTooLong (loaded [1, 0] [1]) ∧
      (loaded [1, 0] [1]).OperandA [1, 0] ∧ (loaded [1, 0] [1]).OperandB [1]) ∧
    (State.resetWith noUnit).params.hasBitdiff = false ∧ AnalyzerTooLong (lengthA 4097) ∧
    AnalyzerFault (lengthA 2) (.unwrittenRead .inA 0) := by
  refine ⟨?_, rfl, .inl (by decide), 0, by decide, fun j h => absurd h (Nat.not_lt_zero j), .inl (by decide)⟩
  unfold AnalyzerTooLong State.OperandA State.OperandB State.Holds; decide

/-- A fault in IN_B, past the bytes of IN_A that are aligned before it. -/
theorem hyp_XdifWritesByteDifference_inB :
    let s : State := { loaded [1, 2] [] with operands := { base.operands with lenA := 2, lenB := 1 } }
    AnalyzerFault s (.unwrittenRead .inB 0) := by
  refine ⟨1, by decide, ?_, .inr ?_⟩ <;> unfold AlignedReadable <;> decide

theorem hyp_XdifResultIsIntegerXor :
    (loaded [1, 0] [1]).params.hasBitdiff = true ∧ ¬ AnalyzerTooLong (loaded [1, 0] [1]) ∧
    (loaded [1, 0] [1]).OperandA [1, 0] ∧ (loaded [1, 0] [1]).OperandB [1] := by
  unfold AnalyzerTooLong State.OperandA State.OperandB State.Holds; decide

theorem hyp_HamdSumsBytePopcounts :
    (loaded [1, 0] [1]).params.wf ∧ (loaded [1, 0] [1]).params.hasBitdiff = true ∧
    ¬ AnalyzerTooLong (loaded [1, 0] [1]) ∧ (loaded [1, 0] [1]).OperandA [1, 0] ∧ (loaded [1, 0] [1]).OperandB [1] ∧
    (State.resetWith noUnit).params.wf ∧ AnalyzerTooLong (lengthA 4097) := by
  unfold AnalyzerTooLong State.OperandA State.OperandB State.Holds; decide

theorem hyp_HamdCountsBitsOfIntegerXor :
    (loaded [] [255]).params.wf ∧ (loaded [] [255]).params.hasBitdiff = true ∧
    ¬ AnalyzerTooLong (loaded [] [255]) ∧ (loaded [] [255]).OperandA [] ∧ (loaded [] [255]).OperandB [255] := by
  unfold AnalyzerTooLong State.OperandA State.OperandB State.Holds; decide

theorem hyp_HamdIsSymmetricAndZeroOnEqual :
    (loaded [1, 0] [1]).OperandA [1, 0] ∧ (loaded [1, 0] [1]).OperandB [1] ∧
    (loaded [1] [1, 0]).OperandA [1] ∧ (loaded [1] [1, 0]).OperandB [1, 0] ∧
    NextWith (exec .hamd (loaded [1, 0] [1])) (fun t => t.status.err = false) ∧
    NextWith (exec .hamd (loaded [1] [1, 0])) (fun t => t.status.err = false) ∧
    NextWith (exec .hamd (loaded [7] [7])) (fun t => t.status.err = false) := by
  refine ⟨?_, ?_, ?_, ?_, ⟨_, rfl, rfl⟩, ⟨_, rfl, rfl⟩, ⟨_, rfl, rfl⟩⟩ <;>
    first | (unfold State.OperandA State.Holds; decide) | (unfold State.OperandB State.Holds; decide)

theorem hyp_HamdIgnoresLeadingZeroBytes :
    (loaded [1] [2]).OperandA [1] ∧ (loaded [1] [2]).OperandB [2] ∧
    (loaded [0, 0, 1] [0, 2]).OperandA (List.replicate 2 0 ++ [1]) ∧
    (loaded [0, 0, 1] [0, 2]).OperandB (List.replicate 1 0 ++ [2]) ∧
    NextWith (exec .hamd (loaded [1] [2])) (fun t => t.status.err = false) ∧
    NextWith (exec .hamd (loaded [0, 0, 1] [0, 2])) (fun t => t.status.err = false) := by
  refine ⟨?_, ?_, ?_, ?_, ⟨_, rfl, rfl⟩, ⟨_, rfl, rfl⟩⟩ <;>
    first | (unfold State.OperandA State.Holds; decide) | (unfold State.OperandB State.Holds; decide)

/-- Two ciphertexts of one byte, what CTRX gives of them, and the two HAMD. -/
theorem hyp_HamdOfPlaintextsEqualsHamdOfCiphertexts :
    ∃ (t t' v v' : State) (p p' : List Byte), p.length = 1 ∧ p'.length = 1 ∧
      (loaded [5] []).OperandA [5] ∧ (loaded [4] []).OperandA [4] ∧
      exec .ctrx (loaded [5] []) = .next t ∧ exec .ctrx (loaded [4] []) = .next t' ∧
      t.status.err = false ∧ t'.status.err = false ∧ t.Holds .out p ∧ t'.Holds .out p' ∧
      (loaded [5] [4]).OperandA [5] ∧ (loaded [5] [4]).OperandB [4] ∧
      exec .hamd (loaded [5] [4]) = .next v ∧ v.status.err = false ∧
      (loaded p p').OperandA p ∧ (loaded p p').OperandB p' ∧
      exec .hamd (loaded p p') = .next v' ∧ v'.status.err = false := by
  obtain ⟨t, p, ht, he, hp⟩ := ctrx_one 5
  obtain ⟨t', p', ht', he', hp'⟩ := ctrx_one 4
  exact ⟨t, t', _, _, [p], [p'], rfl, rfl, operandA_alone _, operandA_alone _, ht, ht', he, he', hp, hp',
    operandA_one _ _, operandB_one _ _, exec_hamd (operandA_one _ _) (operandB_one _ _) rfl, rfl,
    operandA_one _ _, operandB_one _ _, exec_hamd (operandA_one _ _) (operandB_one _ _) rfl, rfl⟩

/-- A mask longer than the ciphertext, vector HR8. -/
theorem hyp_XdifComputesCorruptor :
    let s := loaded [0xaa, 0xbb] [0x01, 0x00, 0x00]
    s.params.hasBitdiff = true ∧ ¬ AnalyzerTooLong s ∧ s.OperandA [0xaa, 0xbb] ∧ s.OperandB (maskBytes 0x10000) := by
  unfold AnalyzerTooLong State.OperandA State.OperandB State.Holds; decide

theorem hyp_CipherPortByteOrder : (0 : Nat) < 16 ∧ (15 : Nat) < 16 ∧ (portVector kt).extractLsb' 112 8 = 1 := by decide

theorem hyp_CmdWriteAcceptsCommand : base.pending = none := by decide

/-- The first and the last word of each range of dropped writes. -/
theorem hyp_BusyWritesAreDropped :
    (pend 1 base).params.wf ∧ (pend 1 base).busy = true ∧
    (∀ off ∈ ([0x10, 0x28, 0x40, 0x5C, 0x10000, 0x10FFC, 0x20000, 0x20FFC] : List Offset), off.toNat % 4 = 0 ∧
      ((0x10 ≤ off.toNat ∧ off.toNat < 0x2C) ∨ (0x40 ≤ off.toNat ∧ off.toNat < 0x60) ∨
      (0x10000 ≤ off.toNat ∧ off.toNat < 0x10000 + (pend 1 base).params.bufBytes) ∨
      (0x20000 ≤ off.toNat ∧ off.toNat < 0x20000 + (pend 1 base).params.bufBytes))) := by
  refine ⟨by decide, rfl, ?_⟩
  simp [pend, base, State.reset, State.resetWith, Config.defaultParams]

theorem hyp_ReadOnlyWritesAreIgnored :
    (pend 1 base).params.wf ∧
    (∀ off ∈ ([0x00000, 0x00004, 0x0002C, 0x00030, 0x30000, 0x30FFC] : List Offset), off.toNat % 4 = 0 ∧
      (off = 0x00000 ∨ off = 0x00004 ∨ off = 0x0002C ∨ off = 0x00030 ∨
      (0x30000 ≤ off.toNat ∧ off.toNat < 0x30000 + (pend 1 base).params.bufBytes))) := by
  refine ⟨by decide, ?_⟩
  simp [pend, base, State.reset, State.resetWith, Config.defaultParams]

theorem hyp_BufferWriteSetsLanesAndReadsBack :
    base.params.wf ∧ base.busy = false ∧ (0 : Nat) % 4 = 0 ∧ (4092 : Nat) % 4 = 0 ∧ 4092 < base.params.bufBytes := by decide

theorem hyp_KeyAndNonceWordsByLanes : base.busy = false := by decide

theorem hyp_OperandRegistersReadBack : base.busy = false := by decide

/-- The offsets where listed and unlisted ranges meet. -/
theorem hyp_BusErrorExactlyOffTheMap :
    base.params.wf ∧
    ([0x00, 0x30, 0x40, 0x5C, 0x10000, 0x10FFC, 0x20000, 0x20FFC, 0x30000, 0x30FFC] : List Offset).all
      (fun off => !(busResponse (readAt off) base).buserr) = true ∧
    ([0x02, 0x34, 0x3C, 0x60, 0x0FFFC, 0x11000, 0x1FFFC, 0x21000, 0x31000, 0x3FFFC] : List Offset).all
      (fun off => (busResponse (readAt off) base).buserr) = true := by
  refine ⟨by decide, ?_, ?_⟩ <;> decide

theorem hyp_BusErrorRecordsAreSticky :
    NextWith (step { pend 1 base with busErrors := [0x34] }) (fun t => t.busy = false) ∧
    ({ pend 1 base with busErrors := [0x34] } : State).schedule.head? ≠ some .rstN :=
  ⟨⟨_, rfl, rfl⟩, by decide⟩

theorem hyp_ReadsHaveNoSideEffect :
    (readAt 0x10000).dir = .read ∧ (busResponse (readAt 0x10000) base).buserr = false := by
  exact ⟨rfl, rfl⟩

theorem hyp_IdAndCapsReadAsConstants : (State.resetWith noUnit).params.wf ∧ State.reset.params.wf := by decide

theorem hyp_CtrlCmdAndIdleResultReads : base.busy = false := by decide

theorem hyp_BusyResultReadsAreFreeDraws :
    (pend 1 base).params.wf ∧ (pend 1 base).busy = true ∧
    (∀ off ∈ ([0x0002C, 0x00030, 0x30000, 0x30FFC] : List Offset), off.toNat % 4 = 0 ∧
      (off = 0x0002C ∨ off = 0x00030 ∨
      (0x30000 ≤ off.toNat ∧ off.toNat < 0x30000 + (pend 1 base).params.bufBytes))) := by
  refine ⟨by decide, rfl, ?_⟩
  simp [pend, base, State.reset, State.resetWith, Config.defaultParams]

/-- A word with a written and an unwritten byte. -/
theorem hyp_HostReadsGiveWrittenBytes :
    (loaded [7] []).params.wf ∧ (loaded [7] []).busy = false ∧ 4092 < (loaded [7] []).params.bufBytes ∧
    (loaded [7] []).bufByte .inA 0 = some 7 ∧ (loaded [7] []).bufByte .inA 1 = none ∧
    (pend 1 (loaded [7] [])).busy = true ∧ (Buffer.inA = .out → (pend 1 (loaded [7] [])).busy = false) := by decide

theorem hyp_KeyCannotBeReadBack :
    NextWith (exec .cblk base) (fun t => t.outLen = 16) ∧ NextWith (exec .xdif (loaded [1] [2])) (fun t => t.outLen = 1) ∧
    NextWith (exec .hamd (loaded [1] [2])) (fun t => t.result = 2) ∧
    exec .hamd (lengthA 1) = .fault (.unwrittenRead .inA 0) :=
  ⟨⟨_, rfl, rfl⟩, ⟨_, rfl, rfl⟩, ⟨_, rfl, rfl⟩, rfl⟩

theorem hyp_InterruptFollowsDoneAndEnable :
    base.busy = false ∧ NextWith (exec .cblk { base with ie := true }) (fun t => t.irq = true) :=
  ⟨rfl, ⟨_, rfl, rfl⟩⟩

theorem hyp_InvariantHoldsAtReset : noUnit.wf := by decide

/-- The invariant at a state with a command pending and input loaded, and the step from it. -/
theorem hyp_EveryStepKeepsInvariant :
    (pend 5 (loaded [1] [2])).Inv ∧ NextWith (step (pend 5 (loaded [1] [2]))) (fun t => t.result = 2) := by
  refine ⟨⟨by decide, by decide, by decide, by decide, by decide, by decide, by decide, by decide, ?_, by decide⟩, ⟨_, rfl, rfl⟩⟩
  intro k h; exact absurd h (Nat.not_lt_zero k)

theorem hyp_OperandsAreStableWhileBusy :
    let s : State := turns [.host] { pend 1 base with master := { BusMaster.idle with program := [wr 0x0001C 5] } }
    s.busy = true ∧ s.schedule.head? ≠ some .rstN ∧ NextWith (step s) (fun t => t.status.werr = true) :=
  ⟨rfl, by decide, ⟨_, rfl, rfl⟩⟩

theorem hyp_ResultsAreStableWhileIdle :
    let s : State := { base with master := { BusMaster.idle with program := [wr 0x30000 5] } }
    s.params.wf ∧ s.busy = false ∧ s.schedule.head? ≠ some .rstN ∧ NextWith (step s) (fun t => t.master.program = []) :=
  ⟨by decide, rfl, by decide, ⟨_, rfl, rfl⟩⟩

theorem hyp_ResetEventAbandonsCommand : (turns [.rstN] (pend 3 base)).schedule = .rstN :: [] := by decide

theorem hyp_PendingCommandCompletes :
    (turns [.host, .engine] (pend 1 base)).busy = true ∧ (turns [.host, .engine] (pend 1 base)).unwrittenRead = none ∧
    .rstN ∉ (turns [.host, .engine] (pend 1 base)).schedule := by decide

theorem hyp_PollRepeatsWhileBusy :
    let s : State := { pend 1 base with master := { BusMaster.idle with program := [.poll, rd 0] } }
    s.master.program = .poll :: [rd 0] ∧ s.busy = true := by decide

theorem hyp_HostStepIsOneRecordedAccess :
    let s : State := { base with master := { BusMaster.idle with program := [.rdx 0 0x43545247, .poll] } }
    s.master.program = .rdx 0 0x43545247 :: [.poll] := by decide

theorem hyp_HarnessChecksFailOnMismatch :
    let s : State := { base with master := { BusMaster.idle with program := [.rdm 0x00014 0x11 0xFF] } }
    s.master.program = .rdm 0x00014 0x11 0xFF :: [] ∧ (busResponse (readAt 0x00014) s).data &&& 0xFF ≠ 0x11 := by decide

theorem hyp_LdkeyAndLdnonceLoadTheirBytes : base.busy = false := by decide

end Sys2Proof.Tests
end

section
/-! PROOFS. The identity registers and the values after reset (`10_state.md` R24, R25, R42). -/

namespace Sys2Proof.Machine

open Sys2Proof

/-! ### The word CAPS reads as (`10_state.md` R25) -/

/-- Bits 23..0 of CAPS hold every capacity that fits them. -/
theorem capsWord_bufBytes {p : Params} (h : p.bufBytes < 2 ^ 24) :
    ((capsWord p).extractLsb' 0 24).toNat = p.bufBytes := by
  have low : (capsWord p).extractLsb' 0 24 = BitVec.ofNat 24 p.bufBytes := BitVec.extractLsb'_append_eq_right
  rw [low, BitVec.toNat_ofNat, Nat.mod_eq_of_lt h]

theorem capsWord_hasBitdiff (p : Params) : (capsWord p).getLsbD 24 = p.hasBitdiff := by
  rw [capsWord_bit]
  simp

theorem capsWord_reserved (p : Params) : (capsWord p).extractLsb' 25 7 = 0 := by
  apply BitVec.eq_of_getLsbD_eq
  intro i hi
  have hlow : ¬ 25 + i < 24 := by omega
  have hbit : 25 + i ≠ 24 := by omega
  simp [BitVec.getLsbD_extractLsb', capsWord_bit, hlow, hbit]

/-! ### The buffers after reset (`10_state.md` R41) -/

@[simp] theorem State.bufByte_resetWith (p : Params) (b : Buffer) (k : Nat) :
    (State.resetWith p).bufByte b k = none := Memory.read?_nil _

/-! ### The obligations -/

/-- Settles O41: the accesses reach the registers ID and CAPS, whose writes do nothing, and CAPS holds the parameters
because a legal `BUF_BYTES` fits 24 bits. -/
theorem idAndCapsReadAsConstants : Obligations.IdAndCapsReadAsConstants := by
  intro s v ⟨_, _, hmax⟩
  have hid : regAt s.params (0x00000 : Offset).toNat = some .id := rfl
  have hcaps : regAt s.params (0x00004 : Offset).toNat = some .caps := rfl
  refine ⟨busResponse_read s rfl hid, busEffect_write s rfl hid, busEffect_write s rfl hcaps, ?_⟩
  rw [busResponse_read s rfl hcaps]
  exact ⟨capsWord_bufBytes (by omega), capsWord_hasBitdiff s.params, capsWord_reserved s.params⟩

/-- Settles O52: the reset state holds each listed value, and its memory lists no byte. -/
theorem resetLeavesListedValues : Obligations.ResetLeavesListedValues := by
  intro p
  exact ⟨rfl, rfl, rfl, rfl, rfl, rfl, rfl, State.bufByte_resetWith p, rfl, rfl, rfl⟩

end Sys2Proof.Machine
end

section
/-! PROOFS. The decoder: the encoded words, the reserved opcodes, and every other word (`30_encoding.md` R69 to R75). -/

namespace Sys2Proof

/-! ### The two fields of a command word (`30_encoding.md` R69) -/

@[simp] theorem opField_toNat (w : Word) : (opField w).toNat = w.toNat % 256 := by
  simp [opField]

@[simp] theorem mbzField_toNat (w : Word) : (mbzField w).toNat = w.toNat / 256 := by
  have hw := w.isLt
  rw [mbzField, BitVec.extractLsb'_toNat, Nat.shiftRight_eq_div_pow]
  omega

theorem mbzField_eq_zero_iff (w : Word) : mbzField w = 0 ↔ w.toNat / 256 = 0 := by
  simp [← BitVec.toNat_inj]

/-- A word is its MBZ field above its OP field. -/
theorem mbzField_append_opField (w : Word) : mbzField w ++ opField w = w := by
  rw [mbzField, opField, BitVec.extractLsb'_append_extractLsb'_eq_extractLsb' (by rfl)]
  exact BitVec.extractLsb'_eq_self

/-! ### Encoded words (`30_encoding.md` R70) -/

theorem encodedWord : ∀ i : Instr, Laws.EncodedWord.Statement i
  | .cblk => Laws.EncodedWord.cblk
  | .kstr => Laws.EncodedWord.kstr
  | .ctrx => Laws.EncodedWord.ctrx
  | .xdif => Laws.EncodedWord.xdif
  | .hamd => Laws.EncodedWord.hamd

@[simp] theorem mbzField_encode (i : Instr) : mbzField (encode i) = 0 := (encodedWord i).1

@[simp] theorem opField_encode (i : Instr) : opField (encode i) = opcode i := (encodedWord i).2.1

theorem eq_encode_of_fields {w : Word} {i : Instr} (hmbz : mbzField w = 0) (hop : opField w = opcode i) :
    w = encode i := by
  rw [← mbzField_append_opField w, hmbz, hop, encode]

/-! ### Reserved opcodes (`30_encoding.md` R72) -/

/-- The opcode is in no row of the opcode map. -/
def ReservedOp (op : Byte) : Prop := ∀ i, op ≠ opcode i

theorem ReservedOp.ne_opcodes {op : Byte} (h : ReservedOp op) : op ≠ 1 ∧ op ≠ 2 ∧ op ≠ 3 ∧ op ≠ 4 ∧ op ≠ 5 :=
  ⟨h .cblk, h .kstr, h .ctrx, h .xdif, h .hamd⟩

theorem reservedOp_iff (op : Byte) : ReservedOp op ↔ op.toNat = 0 ∨ 6 ≤ op.toNat := by
  constructor
  · intro h
    have hne := h.ne_opcodes
    bv_omega
  · rintro h i rfl
    cases i <;> simp [opcode] at h

/-- Every word has MBZ bits set, or a reserved opcode under zero MBZ bits, or is the word of a command. -/
theorem word_cases (w : Word) :
    mbzField w ≠ 0 ∨ (mbzField w = 0 ∧ ReservedOp (opField w)) ∨ ∃ i, w = encode i := by
  by_cases hmbz : mbzField w = 0
  · by_cases hop : ReservedOp (opField w)
    · exact .inr (.inl ⟨hmbz, hop⟩)
    · obtain ⟨i, hi⟩ : ∃ i, opField w = opcode i := by simpa [ReservedOp] using hop
      exact .inr (.inr ⟨i, eq_encode_of_fields hmbz hi⟩)
  · exact .inl hmbz

/-! ### What the decoder gives for each class of words (`30_encoding.md` R75) -/

theorem decode_of_mbzField_ne_zero (hb : Bool) {w : Word} (h : mbzField w ≠ 0) :
    decode hb w = .error .upperBitsNotZero := if_pos h

theorem decode_of_reservedOp (hb : Bool) {w : Word} (hmbz : mbzField w = 0) (hop : ReservedOp (opField w)) :
    decode hb w = .error .reservedOp := by
  obtain ⟨h1, h2, h3, h4, h5⟩ := hop.ne_opcodes
  rw [decode, if_neg (not_not.mpr hmbz), if_neg h1, if_neg h2, if_neg h3, if_neg h4, if_neg h5]

theorem decode_encode (hb : Bool) (i : Instr) :
    decode hb (encode i) = if i.wf hb then .ok i else .error .noBitdiff := by
  cases i <;> rfl

/-! ### When the decoder gives each of its results -/

theorem decode_eq_ok_iff (hb : Bool) (w : Word) (i : Instr) :
    decode hb w = .ok i ↔ i.wf hb = true ∧ w = encode i := by
  constructor
  · intro h
    obtain hmbz | ⟨hmbz, hop⟩ | ⟨j, rfl⟩ := word_cases w
    · simp [decode_of_mbzField_ne_zero hb hmbz] at h
    · simp [decode_of_reservedOp hb hmbz hop] at h
    · rw [decode_encode] at h
      split at h
      next hwf =>
        cases h
        exact ⟨hwf, rfl⟩
      next => cases h
  · rintro ⟨hwf, rfl⟩
    rw [decode_encode, if_pos hwf]

theorem decode_encode_ne_error {hb : Bool} {i : Instr} {e : Illegal} (he : e ≠ .noBitdiff) :
    decode hb (encode i) ≠ .error e := by
  rw [decode_encode]
  split <;> simp [he.symm]

theorem decode_eq_upperBitsNotZero_iff (hb : Bool) (w : Word) :
    decode hb w = .error .upperBitsNotZero ↔ mbzField w ≠ 0 := by
  refine ⟨fun h => ?_, decode_of_mbzField_ne_zero hb⟩
  obtain hmbz | ⟨hmbz, hop⟩ | ⟨i, rfl⟩ := word_cases w
  · exact hmbz
  · simp [decode_of_reservedOp hb hmbz hop] at h
  · exact absurd h (decode_encode_ne_error (by decide))

theorem decode_eq_reservedOp_iff (hb : Bool) (w : Word) :
    decode hb w = .error .reservedOp ↔ mbzField w = 0 ∧ ReservedOp (opField w) := by
  refine ⟨fun h => ?_, fun ⟨hmbz, hop⟩ => decode_of_reservedOp hb hmbz hop⟩
  obtain hmbz | hreserved | ⟨i, rfl⟩ := word_cases w
  · simp [decode_of_mbzField_ne_zero hb hmbz] at h
  · exact hreserved
  · exact absurd h (decode_encode_ne_error (by decide))

theorem decode_eq_noBitdiff_iff (hb : Bool) (w : Word) :
    decode hb w = .error .noBitdiff ↔ ∃ i : Instr, i.wf hb = false ∧ w = encode i := by
  constructor
  · intro h
    obtain hmbz | ⟨hmbz, hop⟩ | ⟨i, rfl⟩ := word_cases w
    · simp [decode_of_mbzField_ne_zero hb hmbz] at h
    · simp [decode_of_reservedOp hb hmbz hop] at h
    · refine ⟨i, ?_, rfl⟩
      simpa [decode_encode] using h
  · rintro ⟨i, hwf, rfl⟩
    simp [decode_encode, hwf]

/-- The commands that can be missing are the analyzer's two, without the analyzer (`30_encoding.md` R73). -/
theorem Instr.wf_eq_false_iff (hb : Bool) (i : Instr) : i.wf hb = false ↔ hb = false ∧ (i = .xdif ∨ i = .hamd) := by
  cases i <;> simp [Instr.wf, Instr.isBitdiff]

/-! ### The obligation -/

/-- Settles O1, by the three classes of words: MBZ bits set, a reserved opcode, or the word of a command. -/
theorem decodeOkIffEncodedCommand : Obligations.DecodeOkIffEncodedCommand := by
  intro hb w
  refine ⟨decode_eq_ok_iff hb w, ?_, ?_, ?_⟩
  · rw [decode_eq_upperBitsNotZero_iff, Ne, mbzField_eq_zero_iff]
  · rw [decode_eq_reservedOp_iff, mbzField_eq_zero_iff, reservedOp_iff, opField_toNat]
  · have hxdif : encode .xdif = 0x00000004 := rfl
    have hhamd : encode .hamd = 0x00000005 := rfl
    rw [decode_eq_noBitdiff_iff, ← hxdif, ← hhamd]
    constructor
    · rintro ⟨i, hwf, rfl⟩
      obtain ⟨hhb, rfl | rfl⟩ := (Instr.wf_eq_false_iff hb i).mp hwf
      · exact ⟨hhb, .inl rfl⟩
      · exact ⟨hhb, .inr rfl⟩
    · rintro ⟨hhb, rfl | rfl⟩
      · exact ⟨.xdif, (Instr.wf_eq_false_iff hb _).mpr ⟨hhb, .inl rfl⟩, rfl⟩
      · exact ⟨.hamd, (Instr.wf_eq_false_iff hb _).mpr ⟨hhb, .inr rfl⟩, rfl⟩

end Sys2Proof
end

section
/-! PROOFS. CBLK: its one check, and the counter block it writes (`40_counter_block.md` R85 to R90). -/

namespace Sys2Proof.Machine

open Sys2Proof

/-! ### The check of CBLK (`60_exceptions.md` R125, R127) -/

/-- The nonce length is the only check of CBLK that can fail. -/
theorem failedCheck_cblk (s : State) :
    failedCheck .cblk s = if s.operands.nonceLen = 16 then none else some .invalidNonceLength := by
  by_cases h : s.operands.nonceLen = 16 <;>
    simp [failedCheck, Instr.wf, Instr.isBitdiff, usesKey, usesNonce, lengthOutOfRange, h]

/-! ### The effect of CBLK (`40_counter_block.md` R90) -/

/-- CBLK past its check. -/
theorem exec_cblk {s : State} (h : s.operands.nonceLen = 16) :
    exec .cblk s = .next (s.writeOut (block s.operands.nonce s.operands.index).toList).complete := by
  have hc : failedCheck .cblk s = none := by rw [failedCheck_cblk, if_pos h]
  exact afterChecks_passed hc _

/-- A command that writes a 16-byte value and completes leaves that value in OUT. -/
theorem wroteOut_bytes16 (s : State) (v : Bytes16) : WroteOut s (s.writeOut v.toList).complete v.toList :=
  wroteOut_complete s _ (by rw [Vector.length_toList]; decide)

/-! ### INDEX (`30_encoding.md` R77) -/

theorem Operands.index_eq_zero {o : Operands} (hlo : o.indexLo = 0) (hhi : o.indexHi = 0) : o.index = 0 := by
  simp [Operands.index, hlo, hhi]

/-! ### The obligations -/

/-- Settles O12, by the check of the nonce length and the integer of the counter block. -/
theorem cblkWritesCounterBlock : Obligations.CblkWritesCounterBlock := by
  intro s
  constructor
  · intro h
    have hc : failedCheck .cblk s = some .invalidNonceLength := by rw [failedCheck_cblk, if_neg h]
    exact exec_of_failedCheck hc
  · intro h
    exact ⟨_, _, exec_cblk h, wroteOut_bytes16 s _, Vector.length_toList, beInt_block _ _⟩

/-- Settles O13: at index 0 the counter block is the nonce. -/
theorem cblkAtIndexZeroWritesNonce : Obligations.CblkAtIndexZeroWritesNonce := by
  intro s hlen hlo hhi
  have hblock : block s.operands.nonce s.operands.index = s.operands.nonce := by
    rw [Operands.index_eq_zero hlo hhi, block_zero]
  have hexec := exec_cblk hlen
  rw [hblock] at hexec
  exact ⟨_, hexec, (wroteOut_bytes16 s _).bytes, by simp⟩

end Sys2Proof.Machine
end

section
/-! PROOFS. KSTR: its checks, the keystream it writes, and the prefixes and chunks of keystreams
(`41_keystream.md` R93 to R98). -/

namespace Sys2Proof.Machine

open Sys2Proof

/-! ### The checks of KSTR and CTRX (`60_exceptions.md` R125 to R127) -/

/-- The commands that use the cipher check the key length, then the nonce length, then LEN_A. -/
theorem failedCheck_of_cipherCommand {i : Instr} (hi : i = .kstr ∨ i = .ctrx) (s : State) :
    failedCheck i s =
      if s.operands.keyLen ≠ 16 then some .invalidKeyLength
      else if s.operands.nonceLen ≠ 16 then some .invalidNonceLength
      else if s.params.bufBytes < s.operands.lenA.toNat then some .lengthRange
      else none := by
  rcases hi with rfl | rfl <;>
    simp [failedCheck, Instr.wf, Instr.isBitdiff, usesKey, usesNonce, lengthOutOfRange]

/-- A command that ends without an error passed its checks. -/
theorem failedCheck_eq_none_of_succeeded {i : Instr} {s t : State} (h : exec i s = .next t)
    (ht : t.status.err = false) : failedCheck i s = none := by
  rcases exec_next h with ⟨c, _, rfl⟩ | ⟨hc, _⟩
  · simp at ht
  · exact hc

/-! ### The bytes of a command's keystream (`41_keystream.md` R93) -/

@[simp] theorem State.length_keystream (E : BlockCipher) (s : State) :
    (s.keystream E).length = s.operands.lenA.toNat := Machine.length_keystream ..

/-- The byte `j` that the cipher and the counter blocks give from block index `i0`. -/
def keystreamByte (E : BlockCipher) (k n : Bytes16) (i0 j : Nat) : Byte :=
  (E k (block n (i0 + j / 16)))[j % 16]'(Nat.mod_lt _ (by decide))

theorem getElem_keystream_eq_keystreamByte (E : BlockCipher) (k n : Bytes16) (i0 L j : Nat)
    (h : j < (keystream E k n i0 L).length) :
    (keystream E k n i0 L)[j] = keystreamByte E k n i0 j :=
  getElem_keystream E k n i0 L j (by simpa using h)

/-- The bytes from block `q` on are those from a base index `q` greater. -/
theorem keystreamByte_add (E : BlockCipher) (k n : Bytes16) (i0 q j : Nat) :
    keystreamByte E k n i0 (16 * q + j) = keystreamByte E k n (i0 + q) j := by
  have hblock : (16 * q + j) / 16 = q + j / 16 := by omega
  have hbyte : (16 * q + j) % 16 = j % 16 := by omega
  simp only [keystreamByte, hblock, hbyte, Nat.add_assoc]

/-! ### Prefixes and chunks of a keystream (`41_keystream.md` R95, R98) -/

theorem take_keystream (E : BlockCipher) (k n : Bytes16) (i0 : Nat) {N M : Nat} (h : N ≤ M) :
    (keystream E k n i0 M).take N = keystream E k n i0 N := by
  apply List.ext_getElem
  · simp [h]
  · intro j h1 h2
    rw [List.getElem_take, getElem_keystream_eq_keystreamByte, getElem_keystream_eq_keystreamByte]

theorem keystream_add (E : BlockCipher) (k n : Bytes16) (i0 q L : Nat) :
    keystream E k n i0 (16 * q + L) = keystream E k n i0 (16 * q) ++ keystream E k n (i0 + q) L := by
  apply List.ext_getElem
  · simp
  · intro j h1 h2
    rw [getElem_keystream_eq_keystreamByte, List.getElem_append]
    split
    next hj => rw [getElem_keystream_eq_keystreamByte]
    next hj =>
      have hq : 16 * q ≤ j := by simpa using hj
      rw [getElem_keystream_eq_keystreamByte, ← keystreamByte_add, Machine.length_keystream,
        Nat.add_sub_cancel' hq]

/-! ### The effect of KSTR (`41_keystream.md` R94) -/

/-- KSTR past its checks. -/
theorem exec_kstr {s : State} (h : failedCheck .kstr s = none) :
    exec .kstr s = .next (s.writeOut (s.keystream Config.cipher)).complete := afterChecks_passed h _

theorem wroteOut_keystream (E : BlockCipher) (s : State) :
    WroteOut s (s.writeOut (s.keystream E)).complete (s.keystream E) :=
  wroteOut_complete s _ (by rw [State.length_keystream]; exact s.operands.lenA.isLt)

/-- Byte `j` of OUT after a successful KSTR. -/
theorem bufByte_out_of_exec_kstr {s t : State} (h : exec .kstr s = .next t) (ht : t.status.err = false) {j : Nat}
    (hj : j < s.operands.lenA.toNat) :
    t.bufByte .out j =
      some (keystreamByte Config.cipher s.operands.key s.operands.nonce s.operands.index j) := by
  have hexec := exec_kstr (failedCheck_eq_none_of_succeeded h ht)
  obtain rfl : (s.writeOut (s.keystream Config.cipher)).complete = t := by
    rw [h] at hexec
    cases hexec
    rfl
  rw [(wroteOut_keystream Config.cipher s).bytes j (by rw [State.length_keystream]; exact hj)]
  exact congrArg some (getElem_keystream_eq_keystreamByte ..)

/-! ### The obligations -/

/-- Settles O14, by the checks in their order and the bytes of the keystream; a 16-byte value with the integer of a
counter block is that block. -/
theorem kstrWritesKeystream : Obligations.KstrWritesKeystream := by
  intro s
  have hchecks := failedCheck_of_cipherCommand (i := .kstr) (.inl rfl) s
  refine ⟨fun hkey => ?_, fun hkey hnonce => ?_, fun hkey hnonce hlen => ?_, fun hkey hnonce hlen => ?_⟩
  · rw [if_pos hkey] at hchecks
    exact exec_of_failedCheck hchecks
  · rw [if_neg (not_not.mpr hkey), if_pos hnonce] at hchecks
    exact exec_of_failedCheck hchecks
  · rw [if_neg (not_not.mpr hkey), if_neg (not_not.mpr hnonce), if_pos hlen] at hchecks
    exact exec_of_failedCheck hchecks
  · rw [if_neg (not_not.mpr hkey), if_neg (not_not.mpr hnonce), if_neg (not_lt.mpr hlen)] at hchecks
    refine ⟨_, _, exec_kstr hchecks, wroteOut_keystream _ s, s.length_keystream _, fun j hj cb hcb => ?_⟩
    rw [eq_block hcb]
    exact getElem_keystream_eq_keystreamByte ..

/-- Settles O15: byte `j` of a keystream does not depend on its length. -/
theorem kstrOutputsArePrefixConsistent : Obligations.KstrOutputsArePrefixConsistent := by
  refine ⟨fun E k n i0 N M hNM => (take_keystream E k n i0 hNM).symm, ?_⟩
  intro s s' t t' hkey hnonce hindex hlen hexec hexec' ht ht' j hj
  rw [bufByte_out_of_exec_kstr hexec ht hj, bufByte_out_of_exec_kstr hexec' ht' (by omega), hkey, hnonce, hindex]

/-- Settles O16: byte `16·q + j` of a keystream is byte `j` of the one from `q` blocks further on. -/
theorem kstrChunksJoin : Obligations.KstrChunksJoin := by
  refine ⟨keystream_add, ?_⟩
  intro s s' t t' q hkey hnonce hindex hlen hexec hexec' ht ht' j hj
  rw [bufByte_out_of_exec_kstr hexec' ht' hj, bufByte_out_of_exec_kstr hexec ht (by omega), keystreamByte_add,
    hkey, hnonce, hindex]

end Sys2Proof.Machine
end

section
/-! PROOFS. CTRX: its checks, the fault on an unwritten message byte, the bytes it writes, and the involution and
the bit-position locality of its output (`42_ctr_cipher.md` R101 to R105). -/

namespace Sys2Proof.Machine

open Sys2Proof

/-! ### The checks of CTRX (`60_exceptions.md` R125 to R127) -/

/-- The checks of a command read the parameters and the operand registers only. -/
theorem failedCheck_congr {s s' : State} (i : Instr) (hparams : s'.params = s.params)
    (hops : s'.operands = s.operands) : failedCheck i s' = failedCheck i s := by
  have hlen : lengthOutOfRange i s' = lengthOutOfRange i s := by
    cases i <;> simp only [lengthOutOfRange, hparams, hops]
  rw [failedCheck, failedCheck, hlen, hparams, hops]

/-! ### The input of CTRX (`42_ctr_cipher.md` R101) -/

theorem withInput_error {input : Except Fault (List Byte)} {e : Fault} (h : input = .error e)
    (f : List Byte → State) : withInput input f = .fault e := by
  rw [h, withInput]

/-- The message loop ends at the first unwritten byte. -/
theorem ctrxInput_error {s : State} {k : Nat} (hk : k < s.operands.lenA.toNat)
    (hbefore : ∀ j, j < k → s.bufByte .inA j ≠ none) (hnone : s.bufByte .inA k = none) :
    ctrxInput s = .error (.unwrittenRead .inA k) := by
  refine readEach_range_error hk (fun j hj => ?_) (bufRead_error hnone)
  obtain ⟨v, hv⟩ := Option.ne_none_iff_exists'.mp (hbefore j hj)
  exact ⟨v, bufRead_ok hv⟩

/-- CTRX past its checks, with an unwritten byte in its message. -/
theorem exec_ctrx_fault {s : State} {k : Nat} (hc : failedCheck .ctrx s = none) (hk : k < s.operands.lenA.toNat)
    (hbefore : ∀ j, j < k → s.bufByte .inA j ≠ none) (hnone : s.bufByte .inA k = none) :
    exec .ctrx s = .fault (.unwrittenRead .inA k) :=
  (afterChecks_passed hc _).trans (withInput_error (ctrxInput_error hk hbefore hnone) _)

/-! ### The output of CTRX (`42_ctr_cipher.md` R101, R103) -/

/-- Applying the same keystream twice gives the data back. -/
theorem ctrApply_ctrApply (E : BlockCipher) (k n : Bytes16) (i0 : Nat) (data : List Byte) :
    ctrApply E k n i0 (ctrApply E k n i0 data) = data := by
  have hlen := length_ctrApply E k n i0 data
  rw [ctrApply, hlen, ctrApply]
  exact xorBytes_cancel data _ (by simp)

/-- The bytes that CTRX writes for a message. -/
def State.ctrxOutput (s : State) (data : List Byte) : List Byte :=
  ctrApply Config.cipher s.operands.key s.operands.nonce s.operands.index data

@[simp] theorem State.length_ctrxOutput (s : State) (data : List Byte) :
    (s.ctrxOutput data).length = data.length := length_ctrApply ..

theorem State.getElem_ctrxOutput (s : State) (data : List Byte) (j : Nat) (h : j < data.length) :
    (s.ctrxOutput data)[j]'(by simpa using h) =
      data[j] ^^^ keystreamByte Config.cipher s.operands.key s.operands.nonce s.operands.index j :=
  getElem_ctrApply ..

theorem State.ctrxOutput_ctrxOutput (s : State) (data : List Byte) : s.ctrxOutput (s.ctrxOutput data) = data :=
  ctrApply_ctrApply ..

theorem State.ctrxOutput_congr {s s' : State} (hops : s'.operands = s.operands) (data : List Byte) :
    s'.ctrxOutput data = s.ctrxOutput data := by
  rw [State.ctrxOutput, State.ctrxOutput, hops]

/-- CTRX past its checks, with its message in IN_A, completes with its output in OUT. -/
theorem exec_ctrx_wroteOut {s : State} {data : List Byte} (hdata : s.OperandA data)
    (hc : failedCheck .ctrx s = none) : ∃ t, exec .ctrx s = .next t ∧ WroteOut s t (s.ctrxOutput data) := by
  refine ⟨_, exec_ctrx hdata hc, wroteOut_complete s (s.ctrxOutput data) ?_⟩
  rw [State.length_ctrxOutput, hdata.1]
  exact s.operands.lenA.isLt

/-- What a successful CTRX left. -/
theorem wroteOut_of_exec_ctrx {s t : State} {data : List Byte} (hdata : s.OperandA data)
    (h : exec .ctrx s = .next t) (ht : t.status.err = false) : WroteOut s t (s.ctrxOutput data) := by
  obtain ⟨u, hu, hwrote⟩ := exec_ctrx_wroteOut hdata (failedCheck_eq_none_of_succeeded h ht)
  obtain rfl : u = t := Host.Outcome.next.inj (hu.symm.trans h)
  exact hwrote

/-- Byte `j` of OUT after a successful CTRX. -/
theorem bufByte_out_of_exec_ctrx {s t : State} {data : List Byte} (hdata : s.OperandA data)
    (h : exec .ctrx s = .next t) (ht : t.status.err = false) {j : Nat} (hj : j < data.length) :
    t.bufByte .out j =
      some (data[j] ^^^ keystreamByte Config.cipher s.operands.key s.operands.nonce s.operands.index j) := by
  rw [(wroteOut_of_exec_ctrx hdata h ht).bytes j (by simpa using hj), State.getElem_ctrxOutput]

/-! ### The obligations -/

/-- Settles O17, by the checks in their order, the message loop and the bytes of the output; a 16-byte value with the
integer of a counter block is that block. -/
theorem ctrxXorsMessageWithKeystream : Obligations.CtrxXorsMessageWithKeystream := by
  intro s
  have hchecks := failedCheck_of_cipherCommand (i := .ctrx) (.inr rfl) s
  refine ⟨fun hkey => ?_, fun hkey hnonce => ?_, fun hkey hnonce hlen => ?_, fun hkey hnonce hlen => ?_⟩
  · exact exec_of_failedCheck (hchecks.trans (if_pos hkey))
  · rw [if_neg (not_not.mpr hkey)] at hchecks
    exact exec_of_failedCheck (hchecks.trans (if_pos hnonce))
  · exact exec_of_failedCheck (c := .lengthRange) (by simp [hchecks, hkey, hnonce, hlen])
  · have hc : failedCheck .ctrx s = none := by simp [hchecks, hkey, hnonce, hlen]
    refine ⟨fun k => exec_ctrx_fault hc, fun data hdata => ?_⟩
    obtain ⟨t, ht, hwrote⟩ := exec_ctrx_wroteOut hdata hc
    refine ⟨t, _, ht, hwrote, s.length_ctrxOutput data, fun j _ hj cb hcb => ?_⟩
    rw [eq_block hcb]
    exact s.getElem_ctrxOutput data j hj

/-- Settles O18: the second message is the first output, and the same keystream applied twice cancels. -/
theorem ctrxTwiceRestoresMessage : Obligations.CtrxTwiceRestoresMessage := by
  intro s t s' data c hdata hexec hsucc hlen hout hparams hops hin
  have hwrote := wroteOut_of_exec_ctrx hdata hexec hsucc
  obtain rfl : c = s.ctrxOutput data := hout.unique hwrote.bytes (by simpa using hlen)
  have hmessage : s'.OperandA (s.ctrxOutput data) := ⟨by rw [hlen, hdata.1, hops], hin⟩
  have hc : failedCheck .ctrx s' = none := by
    rw [failedCheck_congr .ctrx hparams hops]
    exact failedCheck_eq_none_of_succeeded hexec hsucc
  obtain ⟨t', ht', hwrote'⟩ := exec_ctrx_wroteOut hmessage hc
  rw [State.ctrxOutput_congr hops, State.ctrxOutput_ctrxOutput] at hwrote'
  exact ⟨t', ht', hwrote'.completion, hwrote'.bytes⟩

/-- Settles O19: both output bytes hold the same keystream byte, which cancels in their XOR. -/
theorem ctrxKeepsBitDifferences : Obligations.CtrxKeepsBitDifferences := by
  intro s s' t t' data data' hdata hdata' hkey hnonce hindex hexec hexec' ht ht' j h h'
  refine ⟨_, _, bufByte_out_of_exec_ctrx hdata hexec ht h, bufByte_out_of_exec_ctrx hdata' hexec' ht' h', ?_⟩
  rw [hkey, hnonce, hindex, BitVec.xor_assoc, xor_xor_cancel_comm_assoc]

end Sys2Proof.Machine
end

section
/-! PROOFS. The bit-difference analyzer: the checks and the fault of XDIF and HAMD, the right-aligned difference,
the distance and its laws, and its invariance under the cipher (`43_bit_difference.md` R107 to R116). -/

namespace Sys2Proof.Machine

open Sys2Proof

/-! ### The errors and the fault that XDIF and HAMD share (`60_exceptions.md` R125 to R127) -/

/-- The analyzer's commands check that the unit is present, then both lengths. -/
theorem failedCheck_of_analyzerCommand {i : Instr} (hi : i = .xdif ∨ i = .hamd) (s : State) :
    failedCheck i s =
      if s.params.hasBitdiff = false then some .illegalCommand
      else if s.params.bufBytes < s.operands.lenA.toNat ∨ s.params.bufBytes < s.operands.lenB.toNat then
        some .lengthRange
      else none := by
  rcases hi with rfl | rfl <;>
    simp [failedCheck, Instr.wf, Instr.isBitdiff, usesKey, usesNonce, lengthOutOfRange]

section AnalyzerCommand

variable {i : Instr} (hi : i = .xdif ∨ i = .hamd) {s : State}

include hi

theorem exec_analyzerCommand_missing (hunit : s.params.hasBitdiff = false) :
    exec i s = .next (errorCompletion s 6) :=
  exec_of_failedCheck ((failedCheck_of_analyzerCommand hi s).trans (if_pos hunit))

theorem exec_analyzerCommand_tooLong (hunit : s.params.hasBitdiff = true) (hlen : AnalyzerTooLong s) :
    exec i s = .next (errorCompletion s 5) := by
  have hchecks := failedCheck_of_analyzerCommand hi s
  rw [if_neg (by simp [hunit])] at hchecks
  exact exec_of_failedCheck (hchecks.trans (if_pos hlen))

theorem failedCheck_analyzerCommand_passed (hunit : s.params.hasBitdiff = true) (hlen : ¬ AnalyzerTooLong s) :
    failedCheck i s = none := by
  have hchecks := failedCheck_of_analyzerCommand hi s
  rw [if_neg (by simp [hunit])] at hchecks
  exact hchecks.trans (if_neg hlen)

/-- An analyzer command past its checks ends at the first unwritten byte that its loop reads. -/
theorem exec_analyzerCommand_fault (hunit : s.params.hasBitdiff = true) (hlen : ¬ AnalyzerTooLong s) (f : Fault)
    (hf : AnalyzerFault s f) : exec i s = .fault f := by
  have hc := failedCheck_analyzerCommand_passed hi hunit hlen
  rcases hi with rfl | rfl <;>
    exact (afterChecks_passed hc _).trans (withInput_error (diffInput_error hf) _)

end AnalyzerCommand

/-! ### The length of the difference (`43_bit_difference.md` R107) -/

theorem State.diffLength_eq_max_length {s : State} {a b : List Byte} (ha : s.OperandA a) (hb : s.OperandB b) :
    s.diffLength = max a.length b.length := by
  rw [State.diffLength, ha.1, hb.1]

theorem State.diffLength_lt (s : State) : s.diffLength < 2 ^ 32 :=
  max_lt s.operands.lenA.isLt s.operands.lenB.isLt

theorem State.diffLength_le_bufBytes {s : State} (h : ¬ AnalyzerTooLong s) : s.diffLength ≤ s.params.bufBytes := by
  obtain ⟨hA, hB⟩ := not_or.mp h
  exact max_le (not_lt.mp hA) (not_lt.mp hB)

/-! ### The bytes of the difference (`43_bit_difference.md` R108) -/

theorem getElem_alignRight_eq_alignedByte {n : Nat} {a : List Byte} (h : a.length ≤ n) {k : Nat} (hk : k < n) :
    (alignRight n a)[k]'(by simp [hk]) = alignedByte a n k := getElem_alignRight n a h k hk

theorem getElem_byteDifference (a b : List Byte) (k : Nat) (h : k < (byteDifference a b).length) :
    (byteDifference a b)[k] =
      alignedByte a (byteDifference a b).length k ^^^ alignedByte b (byteDifference a b).length k := by
  have hk : k < max a.length b.length := by simpa using h
  rw [length_byteDifference, ← getElem_alignRight_eq_alignedByte (le_max_left ..) hk,
    ← getElem_alignRight_eq_alignedByte (le_max_right ..) hk]
  exact getElem_xorBytes _ _ _ _

theorem byteDifference_eq_map_range (a b : List Byte) :
    byteDifference a b = (List.range (max a.length b.length)).map fun k =>
      alignedByte a (max a.length b.length) k ^^^ alignedByte b (max a.length b.length) k := by
  apply List.ext_getElem
  · simp
  · intro k h1 h2
    rw [getElem_byteDifference, length_byteDifference, List.getElem_map, List.getElem_range]

theorem byteDifference_of_length_eq {a b : List Byte} (h : a.length = b.length) :
    byteDifference a b = xorBytes a b := by
  simp [byteDifference, alignRight, h]

/-! ### The effect of XDIF (`43_bit_difference.md` R108) -/

/-- XDIF past its checks, with its operands in IN_A and IN_B, completes with their difference in OUT. -/
theorem exec_xdif_wroteOut {s : State} {a b : List Byte} (ha : s.OperandA a) (hb : s.OperandB b)
    (hunit : s.params.hasBitdiff = true) (hlen : ¬ AnalyzerTooLong s) :
    ∃ t, exec .xdif s = .next t ∧ WroteOut s t (byteDifference a b) := by
  have hc := failedCheck_analyzerCommand_passed (.inl rfl) hunit hlen
  refine ⟨_, exec_xdif ha hb hc, wroteOut_complete s _ ?_⟩
  rw [length_byteDifference, ← State.diffLength_eq_max_length ha hb]
  exact s.diffLength_lt

/-! ### The distance (`43_bit_difference.md` R110 to R116) -/

theorem hammingDistance_le (a b : List Byte) : hammingDistance a b ≤ 8 * max a.length b.length := by
  simpa [hammingDistance] using popcountBytes_le (byteDifference a b)

theorem hammingDistance_eq_sum (a b : List Byte) :
    hammingDistance a b = ((List.range (max a.length b.length)).map fun k =>
      popcount 8 (alignedByte a (max a.length b.length) k ^^^ alignedByte b (max a.length b.length) k).toNat).sum := by
  rw [hammingDistance, popcountBytes, byteDifference_eq_map_range, List.map_map]
  rfl

theorem beInt_zeros_append (n : Nat) (a : List Byte) : beInt (List.replicate n 0 ++ a) = beInt a := by
  rw [beInt_append, beInt_zeros, Nat.zero_mul, Nat.zero_add]

/-- One keystream on both operands leaves their distance as it is, because it cancels in the XOR (R116). -/
theorem hammingDistance_ctrApply (E : BlockCipher) (k n : Bytes16) (i0 : Nat) {c c' : List Byte}
    (h : c.length = c'.length) :
    hammingDistance (ctrApply E k n i0 c) (ctrApply E k n i0 c') = hammingDistance c c' := by
  have hout : (ctrApply E k n i0 c).length = (ctrApply E k n i0 c').length := by simpa using h
  rw [hammingDistance, hammingDistance, byteDifference_of_length_eq h, byteDifference_of_length_eq hout,
    xorBytes_ctrApply E k n i0 c c' h]

/-! ### The effect of HAMD (`43_bit_difference.md` R110, R114) -/

/-- With lengths in range, the distance of the operands is at most `8 · BUF_BYTES`. -/
theorem hammingDistance_le_bufBytes {s : State} {a b : List Byte} (ha : s.OperandA a) (hb : s.OperandB b)
    (hlen : ¬ AnalyzerTooLong s) : hammingDistance a b ≤ 8 * s.params.bufBytes := by
  have hn := State.diffLength_le_bufBytes hlen
  rw [State.diffLength_eq_max_length ha hb] at hn
  exact (hammingDistance_le a b).trans (Nat.mul_le_mul_left 8 hn)

/-- HAMD past its checks, with its operands in IN_A and IN_B, completes with their distance in RESULT, which a legal
`BUF_BYTES` lets fit. -/
theorem exec_hamd_wroteResult {s : State} {a b : List Byte} (hwf : s.params.wf) (ha : s.OperandA a)
    (hb : s.OperandB b) (hunit : s.params.hasBitdiff = true) (hlen : ¬ AnalyzerTooLong s) :
    ∃ t, exec .hamd s = .next t ∧ WroteResult s t (hammingDistance a b) := by
  have hc := failedCheck_analyzerCommand_passed (.inr rfl) hunit hlen
  have hle := hammingDistance_le_bufBytes ha hb hlen
  obtain ⟨_, _, hmax⟩ := hwf
  exact ⟨_, exec_hamd ha hb hc, wroteResult_complete s _ (by omega)⟩

/-- What a successful HAMD left in RESULT, for all parameters. -/
theorem result_of_exec_hamd {s t : State} {a b : List Byte} (ha : s.OperandA a) (hb : s.OperandB b)
    (h : exec .hamd s = .next t) (ht : t.status.err = false) : t.result = BitVec.ofNat 32 (hammingDistance a b) := by
  have hexec := exec_hamd ha hb (failedCheck_eq_none_of_succeeded h ht)
  obtain rfl : (s.writeResult (hammingDistance a b)).complete = t := Host.Outcome.next.inj (hexec.symm.trans h)
  rfl

/-! ### The obligations -/

/-- Settles O20, by the checks in their order, the analyzer's loop and the bytes of the difference. -/
theorem xdifWritesByteDifference : Obligations.XdifWritesByteDifference := by
  intro s
  refine ⟨exec_analyzerCommand_missing (.inl rfl), exec_analyzerCommand_tooLong (.inl rfl), fun hunit hlen =>
    ⟨exec_analyzerCommand_fault (.inl rfl) hunit hlen, fun a b ha hb => ?_⟩⟩
  obtain ⟨t, ht, hwrote⟩ := exec_xdif_wroteOut ha hb hunit hlen
  exact ⟨t, _, ht, hwrote, length_byteDifference a b, getElem_byteDifference a b⟩

/-- Settles O21: right alignment keeps the integers, and XOR by bytes is XOR of the integers. -/
theorem xdifResultIsIntegerXor : Obligations.XdifResultIsIntegerXor := by
  intro s a b hunit hlen ha hb
  obtain ⟨t, ht, hwrote⟩ := exec_xdif_wroteOut ha hb hunit hlen
  refine ⟨t, _, ht, hwrote, ?_, beInt_byteDifference a b⟩
  rw [length_byteDifference, State.diffLength_eq_max_length ha hb]

/-- Settles O22, by the checks in their order, the analyzer's loop and the distance as a sum over the bytes. -/
theorem hamdSumsBytePopcounts : Obligations.HamdSumsBytePopcounts := by
  intro s hwf
  refine ⟨exec_analyzerCommand_missing (.inr rfl), exec_analyzerCommand_tooLong (.inr rfl), fun hunit hlen =>
    ⟨exec_analyzerCommand_fault (.inr rfl) hunit hlen, fun a b ha hb => ?_⟩⟩
  rw [State.diffLength_eq_max_length ha hb, ← hammingDistance_eq_sum]
  exact exec_hamd_wroteResult hwf ha hb hunit hlen

/-- Settles O23: the distance is the popcount of the XOR of the integers, and the lengths bound it. -/
theorem hamdCountsBitsOfIntegerXor : Obligations.HamdCountsBitsOfIntegerXor := by
  intro s a b hwf hunit hlen ha hb
  obtain ⟨t, ht, hwrote⟩ := exec_hamd_wroteResult hwf ha hb hunit hlen
  refine ⟨t, ht, ?_, ?_⟩
  · rw [hwrote.result, hammingDistance_eq_popcount, State.diffLength_eq_max_length ha hb]
  · rw [hwrote.result]
    exact hammingDistance_le_bufBytes ha hb hlen

/-- Settles O24: the distance is symmetric, and 0 between equal operands. -/
theorem hamdIsSymmetricAndZeroOnEqual : Obligations.HamdIsSymmetricAndZeroOnEqual := by
  intro s s' t t' a b ha hb ha' hb' hexec hexec' ht ht'
  have hresult := result_of_exec_hamd ha hb hexec ht
  have hresult' := result_of_exec_hamd ha' hb' hexec' ht'
  constructor
  · rw [hresult, hresult', hammingDistance_comm]
  · rintro rfl
    rw [hresult, hammingDistance_self]
    rfl

/-- Settles O25: the distance depends on the integers only, and leading zero bytes keep them. -/
theorem hamdIgnoresLeadingZeroBytes : Obligations.HamdIgnoresLeadingZeroBytes := by
  intro s s' t t' a b y z ha hb ha' hb' hexec hexec' ht ht'
  rw [result_of_exec_hamd ha hb hexec ht, result_of_exec_hamd ha' hb' hexec' ht',
    hammingDistance_congr (beInt_zeros_append y a) (beInt_zeros_append z b)]

/-- Settles O26: the plaintexts are the ciphertexts under one keystream, which cancels in their difference. -/
theorem hamdOfPlaintextsEqualsHamdOfCiphertexts : Obligations.HamdOfPlaintextsEqualsHamdOfCiphertexts := by
  intro s s' t t' u v u' v' c c' p p' hlen hp hp' hc hc' hkey hnonce hindex hctrx hctrx' ht ht' hout hout'
    hua hub hhamd hv hua' hub' hhamd' hv'
  have hwrote := wroteOut_of_exec_ctrx hc hctrx ht
  have hwrote' := wroteOut_of_exec_ctrx hc' hctrx' ht'
  obtain rfl : p = s.ctrxOutput c := hout.unique hwrote.bytes (by simpa using hp)
  obtain rfl : p' = s'.ctrxOutput c' := hout'.unique hwrote'.bytes (by simpa using hp')
  have hdist : hammingDistance (s.ctrxOutput c) (s'.ctrxOutput c') = hammingDistance c c' := by
    rw [State.ctrxOutput, State.ctrxOutput, hkey, hnonce, hindex]
    exact hammingDistance_ctrApply _ _ _ _ hlen
  rw [result_of_exec_hamd hua' hub' hhamd' hv', result_of_exec_hamd hua hub hhamd hv, hdist]

end Sys2Proof.Machine
end

section
/-! PROOFS. The corruptor of the host reference, as the trailing bytes of the analyzer's difference
(`48_host_reference.md` R117 to R120). -/

namespace Sys2Proof.Machine

open Sys2Proof

theorem xorBytes_append {s s' : List Byte} (t t' : List Byte) (h : s.length = s'.length) :
    xorBytes (s ++ t) (s' ++ t') = xorBytes s s' ++ xorBytes t t' :=
  List.zipWith_append h

theorem xorBytes_zeros {n : Nat} {s : List Byte} (h : s.length = n) : xorBytes s (List.replicate n 0) = s := by
  apply List.ext_getElem
  · simp [h]
  · intro k _ _
    rw [getElem_xorBytes, List.getElem_replicate]
    exact BitVec.xor_zero

theorem drop_xorBytes (d : Nat) (s t : List Byte) : (xorBytes s t).drop d = xorBytes (s.drop d) (t.drop d) :=
  List.drop_zipWith

theorem alignRight_eq_self {n : Nat} {a : List Byte} (h : n ≤ a.length) : alignRight n a = a := by
  rw [alignRight, Nat.sub_eq_zero_of_le h, List.replicate_zero, List.nil_append]

theorem drop_alignRight (n : Nat) (a : List Byte) : (alignRight n a).drop (n - a.length) = a := by
  rw [alignRight, List.drop_left' List.length_replicate]

@[simp] theorem length_corruptWith (c t : List Byte) : (corruptWith c t).length = c.length := by
  simp [corruptWith]
  omega

/-- A mask that fits in the ciphertext: the zeros that align it let the leading bytes pass through (R118). -/
theorem corruptWith_eq_byteDifference {c t : List Byte} (h : t.length ≤ c.length) :
    corruptWith c t = byteDifference c t := by
  set d := c.length - t.length
  have hd : (c.take d).length = d := List.length_take_of_le (Nat.sub_le ..)
  calc corruptWith c t
      = c.take d ++ xorBytes (c.drop d) t := by simp [corruptWith, h, d]
    _ = xorBytes (c.take d) (List.replicate d 0) ++ xorBytes (c.drop d) t := by rw [xorBytes_zeros hd]
    _ = xorBytes (c.take d ++ c.drop d) (List.replicate d 0 ++ t) := (xorBytes_append _ _ (by simp [hd])).symm
    _ = byteDifference c t := by
      rw [byteDifference, max_eq_left h, alignRight_eq_self le_rfl, List.take_append_drop, alignRight]

/-- A mask longer than the ciphertext: its leading bytes are dropped (R118). -/
theorem corruptWith_eq_drop_of_le {c t : List Byte} (h : c.length ≤ t.length) :
    corruptWith c t = (byteDifference c t).drop (t.length - c.length) := by
  rw [byteDifference, max_eq_right h, drop_xorBytes, drop_alignRight, alignRight_eq_self le_rfl]
  simp [corruptWith, h]

/-- The corrupted ciphertext is the difference of the ciphertext and the mask without the bytes before the
ciphertext's first (R120). -/
theorem corruptWith_eq_drop_byteDifference (c t : List Byte) :
    corruptWith c t = (byteDifference c t).drop (max c.length t.length - c.length) := by
  rcases le_total t.length c.length with h | h
  · rw [max_eq_left h, Nat.sub_self, List.drop_zero, corruptWith_eq_byteDifference h]
  · rw [max_eq_right h, corruptWith_eq_drop_of_le h]

/-- A buffer that holds some bytes holds their tail further up. -/
theorem State.Holds.drop {s : State} {b : Buffer} {data : List Byte} (h : s.Holds b data) (d p : Nat)
    (hp : p < (data.drop d).length) : s.bufByte b (d + p) = some (data.drop d)[p] := by
  rw [List.getElem_drop]
  exact h (d + p) _

/-- Settles O27: OUT holds the difference, and the corrupted ciphertext is its last bytes. -/
theorem xdifComputesCorruptor : Obligations.XdifComputesCorruptor := by
  intro s c m hunit hlen ha hb
  obtain ⟨t, ht, hwrote⟩ := exec_xdif_wroteOut ha hb hunit hlen
  refine ⟨t, ht, hwrote.completion, ?_, length_corruptWith c (maskBytes m), ?_⟩
  · rw [hwrote.outLen, length_byteDifference]
  · rw [State.diffLength_eq_max_length ha hb, corrupt, corruptWith_eq_drop_byteDifference]
    exact hwrote.bytes.drop _

end Sys2Proof.Machine
end

section
/-! PROOFS. Exceptions: the order of the checks, what a failed and a successful command leave, acceptance and the
interrupt (`60_exceptions.md` R124 to R136). -/

namespace Sys2Proof.Machine

open Sys2Proof

/-! ### Writes to CTRL, STATUS and CMD (`20_memory.md` R57) -/

@[simp] theorem busEffect_write_ctrl (s : State) (w : Word) :
    busEffect (writeAt 0x00008 w) s = { s with ie := w.getLsbD 0 } := by
  have hreg : regAt s.params (0x00008 : Offset).toNat = some .ctrl := rfl
  exact busEffect_write s rfl hreg

@[simp] theorem busEffect_write_status (s : State) (w : Word) :
    busEffect (writeAt 0x0000C w) s = { s with status := s.status.write w } := by
  have hreg : regAt s.params (0x0000C : Offset).toNat = some .status := rfl
  exact busEffect_write s rfl hreg

/-- A CMD write while BUSY = 0 is the acceptance (`60_exceptions.md` R128). -/
theorem busEffect_write_cmd_idle {s : State} (h : s.busy = false) (w : Word) :
    busEffect (writeAt 0x00010 w) s = s.accept w := by
  have hreg : regAt s.params (0x00010 : Offset).toNat = some .cmd := rfl
  exact (busEffect_write s rfl hreg).trans (State.guarded_idle h _)

/-! ### The checks of a decoded command (`60_exceptions.md` R125 to R127) -/

theorem usesKey_iff (i : Instr) : usesKey i = true ↔ i = .kstr ∨ i = .ctrx := by
  cases i <;> simp [usesKey]

theorem usesNonce_iff (i : Instr) : usesNonce i = true ↔ i = .cblk ∨ i = .kstr ∨ i = .ctrx := by
  cases i <;> simp [usesNonce]

theorem lengthOutOfRange_iff (i : Instr) (s : State) :
    lengthOutOfRange i s = true ↔
      ((i = .kstr ∨ i = .ctrx) ∧ s.params.bufBytes < s.operands.lenA.toNat) ∨
      ((i = .xdif ∨ i = .hamd) ∧ AnalyzerTooLong s) := by
  cases i <;> simp [lengthOutOfRange, AnalyzerTooLong]

/-- Past the decoder, the checks are the key length, the nonce length and the message lengths, in that order. -/
theorem failedCheck_of_wf {i : Instr} {s : State} (h : i.wf s.params.hasBitdiff = true) :
    failedCheck i s =
      if usesKey i = true ∧ s.operands.keyLen ≠ 16 then some .invalidKeyLength
      else if usesNonce i = true ∧ s.operands.nonceLen ≠ 16 then some .invalidNonceLength
      else if lengthOutOfRange i s = true then some .lengthRange
      else none := by
  simp [failedCheck, h]

/-! ### The engine's step with a word pending (`10_state.md` R16) -/

theorem engineStep_of_illegal {s : State} {w : Word} {e : Illegal} (hw : s.pending = some w)
    (he : decode s.params.hasBitdiff w = .error e) : engineStep s = .next (errorCompletion s 6) := by
  simp only [engineStep, hw, he]
  rfl

theorem engineStep_of_decode {s : State} {w : Word} {i : Instr} (hw : s.pending = some w)
    (hi : decode s.params.hasBitdiff w = .ok i) : engineStep s = recordFault s (exec i s) := by
  simp only [engineStep, hw, hi]

theorem engineStep_of_failedCheck {s : State} {w : Word} {i : Instr} {c : ErrCode} (hw : s.pending = some w)
    (hi : decode s.params.hasBitdiff w = .ok i) (hc : failedCheck i s = some c) :
    engineStep s = .next (errorCompletion s c.code) := by
  rw [engineStep_of_decode hw hi, exec_of_failedCheck hc, recordFault_next]

/-! ### What a command that passed its checks leaves (`60_exceptions.md` R129, R131) -/

theorem Effect.succeeded {i : Instr} {s t : State} (h : Effect i s t) : Succeeded t := by
  cases h <;> exact ⟨rfl, rfl, rfl, rfl⟩

theorem Effect.out_written {i : Instr} {s t : State} (h : Effect i s t) (hi : i ≠ .hamd) :
    t.outLen = BitVec.ofNat 32 (outBytes i s) ∧ ∀ k, k < outBytes i s → t.bufByte .out k ≠ none := by
  cases h with
  | out bs _ hlen =>
    rw [← hlen]
    refine ⟨rfl, fun k hk => ?_⟩
    have hbyte : (s.writeOut bs).complete.bufByte .out k = some bs[k] := State.bufByte_writeOut s bs k hk
    simp [hbyte]
  | result _ hhamd _ => exact absurd hhamd hi

theorem withInput_eq_next {input : Except Fault (List Byte)} {effect : List Byte → State} {t : State}
    (h : withInput input effect = .next t) : ∃ bs, input = .ok bs ∧ t = effect bs := by
  cases input with
  | error e => cases h
  | ok bs =>
    cases h
    exact ⟨bs, rfl, rfl⟩

/-- HAMD past its checks read both operands to the end and left the popcount of their difference in RESULT. -/
theorem result_of_passed_hamd {s t : State} (h : exec .hamd s = .next t) (hc : failedCheck .hamd s = none) :
    ∃ d, diffInput s = .ok d ∧ t.result = BitVec.ofNat 32 (popcountBytes d) := by
  obtain ⟨d, hd, rfl⟩ := withInput_eq_next ((afterChecks_passed hc _).symm.trans h)
  exact ⟨d, hd, rfl⟩

/-- A command that passed its checks succeeds, or the engine records the unwritten byte it read (R41, R138). -/
theorem engineStep_of_passed {s : State} {w : Word} {i : Instr} (hw : s.pending = some w)
    (hi : decode s.params.hasBitdiff w = .ok i) (hc : failedCheck i s = none) :
    ∃ t, engineStep s = .next t ∧
      (Succeeded t ∨ ∃ b k, t.unwrittenRead = some (.unwrittenRead b k) ∧ t.status = s.status) := by
  rw [engineStep_of_decode hw hi]
  rcases exec_cases i s with ⟨c, hfailed, _⟩ | ⟨⟨b, k⟩, _, hexec⟩ | ⟨t, _, hexec, heffect⟩
  · rw [hc] at hfailed
    cases hfailed
  · rw [hexec]
    exact ⟨_, rfl, .inr ⟨b, k, rfl, rfl⟩⟩
  · rw [hexec]
    exact ⟨t, rfl, .inl heffect.succeeded⟩

/-! ### The interrupt (`60_exceptions.md` R135) -/

/-- Every completion, with an error or without, sets DONE and leaves CTRL. -/
theorem irq_of_exec {i : Instr} {s t : State} (h : exec i s = .next t) : t.irq = s.ie := by
  obtain ⟨c, _, rfl⟩ | ⟨_, heffect⟩ := exec_next h
  · simp [State.irq]
  · cases heffect <;> simp [State.irq]

/-! ### The obligations -/

/-- Settles O8: a decoded command is well formed, and its checks come in the order of R125. -/
theorem firstFailedCheckIsReported : Obligations.FirstFailedCheckIsReported := by
  intro s w hw
  refine ⟨fun e he => engineStep_of_illegal hw he, fun i hi => ?_⟩
  have hwf : i.wf s.params.hasBitdiff = true := ((decode_eq_ok_iff _ w i).mp hi).1
  have hchecks := failedCheck_of_wf hwf
  simp only [usesKey_iff, usesNonce_iff] at hchecks
  refine ⟨fun hkey => ?_, fun hkey hnonce => ?_, fun hkey hnonce hlen => ?_, fun hkey hnonce hlen => ?_⟩
  · exact engineStep_of_failedCheck hw hi (hchecks.trans (if_pos hkey))
  · rw [if_neg hkey] at hchecks
    exact engineStep_of_failedCheck hw hi (hchecks.trans (if_pos hnonce))
  · rw [if_neg hkey, if_neg hnonce] at hchecks
    exact engineStep_of_failedCheck hw hi (hchecks.trans (if_pos ((lengthOutOfRange_iff i s).mpr hlen)))
  · rw [if_neg hkey, if_neg hnonce] at hchecks
    exact engineStep_of_passed hw hi (hchecks.trans (if_neg (mt (lengthOutOfRange_iff i s).mp hlen)))

/-- Settles O9: a next state of a command is the error completion of a failed check, or the command's effect. -/
theorem failedCommandChangesOnlyStatus : Obligations.FailedCommandChangesOnlyStatus := by
  intro i s t h
  obtain ⟨c, _, rfl⟩ | ⟨hc, heffect⟩ := exec_next h
  · exact ⟨fun _ => ⟨rfl, c.code_ne_zero⟩, fun hok => by simp at hok⟩
  · obtain ⟨_, _, hok, _⟩ := heffect.succeeded
    refine ⟨fun herr => by simp [hok] at herr, fun _ => ⟨heffect.succeeded, heffect.out_written, ?_⟩⟩
    rintro rfl
    exact result_of_passed_hamd h hc

/-- Settles O46, by the writes of the three registers and the completion of a command. -/
theorem interruptFollowsDoneAndEnable : Obligations.InterruptFollowsDoneAndEnable := by
  intro s
  refine ⟨by simp [State.irq], fun w => ?_, fun w => ?_, fun w hidle => ?_, fun i t => irq_of_exec⟩
  · rw [busEffect_write_ctrl]
    exact ⟨rfl, rfl⟩
  · rw [busEffect_write_status]
    exact ⟨(Bool.and_assoc ..).symm, rfl⟩
  · rw [busEffect_write_cmd_idle hidle]
    simp [State.irq]

/-- Settles O30: while nothing is pending a CMD write is the acceptance. -/
theorem cmdWriteAcceptsCommand : Obligations.CmdWriteAcceptsCommand := by
  intro s w hpending
  exact busEffect_write_cmd_idle (s.busy_eq_false_iff.mpr hpending) w

end Sys2Proof.Machine
end

section
/-! PROOFS. Host writes while a command is pending, and the operands until its completion
(`70_reset_and_hazards.md` R150, R152). -/

namespace Sys2Proof.Machine

open Sys2Proof

/-! ### The registers whose writes are dropped while BUSY = 1 (`70_reset_and_hazards.md` R150) -/

/-- The registers that a host write reaches only while BUSY = 0. -/
def Reg.isGuarded : Reg → Bool
  | .cmd | .keyLen | .nonceLen | .lenA | .lenB | .indexLo | .indexHi | .key _ | .nonce _ => true
  | .buf .inA _ | .buf .inB _ => true
  | .id | .caps | .ctrl | .status | .outLen | .result | .buf .out _ => false

theorem writeReg_guarded_busy {r : Reg} (hr : r.isGuarded = true) {s : State} (h : s.busy = true) (w : Word) :
    writeReg r w s = { s with status := s.status.dropped } := by
  cases r with
  | cmd | keyLen | nonceLen | lenA | lenB | indexLo | indexHi | key | nonce => exact State.guarded_busy h _
  | id | caps | ctrl | status | outLen | result => cases hr
  | buf b k =>
    cases b with
    | inA | inB => exact State.guarded_busy h _
    | out => cases hr

/-! ### Where these registers lie (`10_state.md` R23) -/

theorem registerMap_lookup_guarded :
    ∀ j < 24, (4 ≤ j ∧ j < 11) ∨ (16 ≤ j ∧ j < 24) →
      (registerMap.lookup (4 * j)).any Reg.isGuarded = true := by decide

theorem regAt_guarded_of_registerMap (p : Params) {off : Nat} (h4 : off % 4 = 0)
    (h : (0x10 ≤ off ∧ off < 0x2C) ∨ (0x40 ≤ off ∧ off < 0x60)) :
    ∃ r, regAt p off = some r ∧ r.isGuarded = true := by
  obtain ⟨j, rfl⟩ := Nat.dvd_of_mod_eq_zero h4
  have hany := registerMap_lookup_guarded j (by omega) (by omega)
  obtain ⟨r, hlookup, hr⟩ := (Option.any_eq_true _ _).mp hany
  exact ⟨r, by simp only [regAt, hlookup], hr⟩

theorem regAt_of_window (p : Params) (b : Buffer) {off : Nat} (hp : p.bufBytes ≤ 0x10000)
    (h : b.base ≤ off ∧ off < b.base + p.bufBytes) : regAt p off = some (.buf b (off - b.base)) := by
  have hreg := regAt_base p b (off - b.base) hp (by omega)
  rwa [Nat.add_sub_cancel' h.1] at hreg

/-! ### What a pending command reads (`70_reset_and_hazards.md` R152) -/

/-- Both states hold the same operand registers and the same bytes in the windows of IN_A and IN_B. -/
structure SameInputs (s t : State) : Prop where
  operands : t.operands = s.operands
  inA : ∀ k < 0x10000, t.bufByte .inA k = s.bufByte .inA k
  inB : ∀ k < 0x10000, t.bufByte .inB k = s.bufByte .inB k

theorem SameInputs.of_eq {s t : State} (hoperands : t.operands = s.operands) (hmem : t.mem = s.mem) :
    SameInputs s t where
  operands := hoperands
  inA _ _ := congrArg (Memory.read? · _) hmem
  inB _ _ := congrArg (Memory.read? · _) hmem

/-- OUT lies above the windows of both input buffers. -/
theorem SameInputs.writeOut (s : State) (bs : List Byte) : SameInputs s (s.writeOut bs) where
  operands := rfl
  inA k hk := State.read?_writeOut_outside s bs _ (by simp only [Buffer.base]; omega)
  inB k hk := State.read?_writeOut_outside s bs _ (by simp only [Buffer.base]; omega)

theorem SameInputs.of_effect {i : Instr} {s t : State} (h : Effect i s t) : SameInputs s t := by
  cases h with
  | out bs _ _ =>
    have hout := SameInputs.writeOut s bs
    exact ⟨hout.operands, hout.inA, hout.inB⟩
  | result _ _ _ => exact .of_eq rfl rfl

theorem SameInputs.of_exec {i : Instr} {s t : State} (h : exec i s = .next t) : SameInputs s t := by
  obtain ⟨_, _, rfl⟩ | ⟨_, heffect⟩ := exec_next h
  · exact .of_eq rfl rfl
  · exact .of_effect heffect

theorem SameInputs.of_engineStep {s t : State} (h : engineStep s = .next t) : SameInputs s t := by
  obtain ⟨_, hstep⟩ | ⟨_, _, _, _, hstep⟩ | ⟨_, _, _, _, ⟨_, hexec, hstep⟩ | ⟨_, _, hstep⟩⟩ := engineStep_cases s
  all_goals
    rw [hstep] at h
    cases h
  · exact .of_eq rfl rfl
  · exact .of_eq rfl rfl
  · exact .of_exec hexec
  · exact .of_eq rfl rfl

/-- While a command is pending an access changes CTRL, STATUS, the fault records or the draws at most. -/
theorem SameInputs.busEffect {s : State} (h : s.busy = true) (x : Transfer) : SameInputs s (busEffect x s) := by
  obtain hx | ⟨_, _, hx⟩ | ⟨r, w, _, hx⟩ := busEffect_cases x s
  · rw [hx]
    exact .of_eq rfl rfl
  · rw [hx]
    exact .of_eq rfl rfl
  · obtain ⟨_, _, hwrite⟩ := writeReg_busy h r w
    rw [hx, hwrite]
    exact .of_eq rfl rfl

theorem SameInputs.hostStep {s : State} (h : s.busy = true) : SameInputs s (hostStep s) := by
  obtain hstep | ⟨x, _, hstep⟩ := hostStep_cases s
  · rw [hstep]
    exact .of_eq rfl rfl
  · rw [hstep]
    have haccess := SameInputs.busEffect h x
    exact ⟨haccess.operands, haccess.inA, haccess.inB⟩

/-- Taking a turn off the schedule leaves the inputs. -/
theorem SameInputs.of_turnTaken {s t : State} (h : SameInputs s.turnTaken t) : SameInputs s t :=
  ⟨h.operands, h.inA, h.inB⟩

/-! ### The obligations -/

/-- Settles O31: each listed offset names a register whose write is guarded. -/
theorem busyWritesAreDropped : Obligations.BusyWritesAreDropped := by
  intro s off w ⟨_, _, hmax⟩ hbusy h4 hoff
  have hreg : ∃ r, regAt s.params off.toNat = some r ∧ r.isGuarded = true := by
    obtain h | h | h | h := hoff
    · exact regAt_guarded_of_registerMap _ h4 (.inl h)
    · exact regAt_guarded_of_registerMap _ h4 (.inr h)
    · exact ⟨_, regAt_of_window _ .inA hmax h, rfl⟩
    · exact ⟨_, regAt_of_window _ .inB hmax h, rfl⟩
  obtain ⟨r, hr, hguarded⟩ := hreg
  exact (busEffect_write s h4 hr).trans (writeReg_guarded_busy hguarded hbusy w)

/-- Settles O49: the engine writes OUT, RESULT and the completion at most, and the host's writes of the inputs are
dropped. -/
theorem operandsAreStableWhileBusy : Obligations.OperandsAreStableWhileBusy := by
  intro s t hbusy hreset hstep
  have hinputs : SameInputs s.turnTaken t := by
    obtain ⟨_, _, _, h⟩ | ⟨_, _, h⟩ | ⟨_, _, _, h⟩ | ⟨hr, _⟩ := step_cases s
    · rw [h] at hstep
      cases hstep
    · exact .of_engineStep (h.symm.trans hstep)
    · rw [h] at hstep
      cases hstep
      exact .hostStep hbusy
    · exact absurd hr hreset
  obtain ⟨hoperands, hA, hB⟩ := hinputs.of_turnTaken
  exact ⟨hoperands, fun k hk => ⟨hA k hk, hB k hk⟩⟩

end Sys2Proof.Machine
end

section
/-! PROOFS. What a step was, and the invariant: it holds after reset, and every step keeps it (`70_reset_and_hazards.md`
R146, log entry 6). -/

namespace Sys2Proof.Machine

open Sys2Proof

/-! ### What a step that answers next was -/

/-- The engine's step did nothing, or completed an illegal word, or ran the pending command, or recorded its fault. -/
theorem engineStep_eq_next {s t : State} (h : engineStep s = .next t) :
    (s.pending = none ∧ t = s) ∨ (s.busy = true ∧ t = s.raiseCmdError .illegalCommand) ∨
    (∃ i, s.busy = true ∧ exec i s = .next t) ∨ (∃ f, s.busy = true ∧ t = s.recordUnwrittenRead f) := by
  obtain ⟨hw, e⟩ | ⟨_, _, hw, _, e⟩ | ⟨_, i, hw, _, ⟨_, hexec, e⟩ | ⟨f, _, e⟩⟩ := engineStep_cases s
  all_goals
    rw [e] at h
    cases h
  · exact .inl ⟨hw, rfl⟩
  · exact .inr (.inl ⟨State.busy_of_pending hw, rfl⟩)
  · exact .inr (.inr (.inl ⟨i, State.busy_of_pending hw, hexec⟩))
  · exact .inr (.inr (.inr ⟨f, State.busy_of_pending hw, rfl⟩))

/-- A step that answers next was the engine's or the host's, with no fault recorded, or the reset event. -/
theorem step_eq_next {s t : State} (h : step s = .next t) :
    (s.unwrittenRead = none ∧ engineStep s.turnTaken = .next t) ∨
    (s.unwrittenRead = none ∧ t = hostStep s.turnTaken) ∨
    (s.schedule.head? = some .rstN ∧ t = s.turnTaken.resetEvent) := by
  obtain ⟨_, _, _, e⟩ | ⟨_, hu, e⟩ | ⟨_, hu, _, e⟩ | ⟨hr, e⟩ := step_cases s
  all_goals rw [e] at h
  · cases h
  · exact .inl ⟨hu, h⟩
  · cases h
    exact .inr (.inl ⟨hu, rfl⟩)
  · cases h
    exact .inr (.inr ⟨hr, rfl⟩)

/-! ### The invariant -/

theorem State.Inv.resetWith {p : Params} (hp : p.wf) : (State.resetWith p).Inv where
  params_wf := hp
  mem_wf := List.Pairwise.nil
  mem_buffers := by simp [State.resetWith]
  err_iff := ⟨fun _ => rfl, fun _ => rfl⟩
  errcode_ok := .inl rfl
  busy_clear := by simp [State.busy, State.resetWith]
  fault_busy := fun h => absurd rfl h
  outLen_le := Nat.zero_le _
  out_written := by simp [State.resetWith]
  result_le := Nat.zero_le _

/-- The engine's step keeps the invariant: it does nothing, completes a command, or records the fault of one that is
still pending. -/
theorem State.Inv.of_engineStep {s t : State} (h : s.Inv) (hu : s.unwrittenRead = none)
    (hstep : engineStep s = .next t) : t.Inv := by
  obtain ⟨_, rfl⟩ | ⟨_, rfl⟩ | ⟨_, _, hexec⟩ | ⟨f, hbusy, rfl⟩ := engineStep_eq_next hstep
  · exact h
  · exact h.raiseCmdError hu _
  · exact h.of_exec hu hexec
  · exact h.recordUnwrittenRead hbusy f

theorem State.Inv.turnTaken {s : State} (h : s.Inv) : s.turnTaken.Inv := h.setSchedule _

/-! ### The obligations -/

/-- Settles O47: the defaults of R7 are legal, and every clause holds of the values after reset. -/
theorem invariantHoldsAtReset : Obligations.InvariantHoldsAtReset :=
  ⟨State.Inv.resetWith (by decide), fun _ => State.Inv.resetWith⟩

/-- Settles O48, by the agent that moves: the engine, the host, or the reset event. -/
theorem everyStepKeepsInvariant : Obligations.EveryStepKeepsInvariant := by
  intro s t h hstep
  obtain ⟨hu, hengine⟩ | ⟨_, rfl⟩ | ⟨_, rfl⟩ := step_eq_next hstep
  · exact h.turnTaken.of_engineStep hu hengine
  · exact h.turnTaken.hostStep
  · exact h.turnTaken.resetEvent

end Sys2Proof.Machine
end

section
/-! PROOFS. What a command leaves alone, what its fault names, and that the key reaches only the commands that use it
(`30_encoding.md` R76, `10_state.md` R36, R41). -/

namespace Sys2Proof.Machine

open Sys2Proof

/-! ### The frame of a command (`30_encoding.md` R76) -/

theorem Effect.sameOutsideCommand {i : Instr} {s t : State} (h : Effect i s t) : SameOutsideCommand s t := by
  cases h <;> exact ⟨rfl, rfl, rfl, rfl, rfl, rfl, rfl, rfl, rfl⟩

theorem Effect.sameOutsideOut {i : Instr} {s t : State} (h : Effect i s t) : SameOutsideOut (outBytes i s) s t := by
  cases h with
  | out bs _ hlen =>
    rw [← hlen]
    exact fun a ha => State.read?_writeOut_outside s bs a ha
  | result _ _ _ => exact fun _ _ => rfl

theorem Effect.result_eq {i : Instr} {s t : State} (h : Effect i s t) (hi : i ≠ .hamd) : t.result = s.result := by
  cases h with
  | out _ _ _ => rfl
  | result _ hhamd _ => exact absurd hhamd hi

theorem Effect.outLen_eq {s t : State} (h : Effect .hamd s t) : t.outLen = s.outLen := by
  cases h with
  | out _ hi _ => exact absurd rfl hi
  | result _ _ _ => rfl

/-- Both ways a command answers next leave what no command writes. -/
theorem sameOutsideCommand_of_exec {i : Instr} {s t : State} (h : exec i s = .next t) : SameOutsideCommand s t := by
  obtain ⟨_, _, rfl⟩ | ⟨_, heffect⟩ := exec_next h
  · exact ⟨rfl, rfl, rfl, rfl, rfl, rfl, rfl, rfl, rfl⟩
  · exact heffect.sameOutsideCommand

/-! ### The fault of a command (`10_state.md` R41) -/

/-- The fault names an unwritten byte of the buffer below a length. -/
def UnwrittenBelow (s : State) (b : Buffer) (len : Nat) (f : Fault) : Prop :=
  ∃ k < len, s.bufByte b k = none ∧ f = .unwrittenRead b k

theorem exists_of_readEach_error {read : Nat → Except Fault Byte} {f : Fault} {ks : List Nat}
    (h : readEach read ks = .error f) : ∃ k ∈ ks, read k = .error f := by
  induction ks with
  | nil => cases h
  | cons k ks ih =>
    simp only [readEach] at h
    split at h
    next hk =>
      cases h
      exact ⟨k, List.mem_cons_self, hk⟩
    next =>
      split at h
      next hrest =>
        cases h
        obtain ⟨j, hj, hread⟩ := ih hrest
        exact ⟨j, List.mem_cons_of_mem _ hj, hread⟩
      next => cases h

theorem unwrittenBelow_of_bufRead {b : Buffer} {s : State} {k len : Nat} {f : Fault} (h : bufRead b s k = .error f)
    (hk : k < len) : UnwrittenBelow s b len f := by
  unfold bufRead at h
  split at h
  next => cases h
  next hnone =>
    cases h
    exact ⟨k, hk, hnone, rfl⟩

/-- The padding to the left of an aligned operand is no read. -/
theorem unwrittenBelow_of_bufReadAligned {b : Buffer} {s : State} {len n k : Nat} {f : Fault} (hlen : len ≤ n)
    (hk : k < n) (h : bufReadAligned b len n s k = .error f) : UnwrittenBelow s b len f := by
  unfold bufReadAligned at h
  split at h
  · exact unwrittenBelow_of_bufRead h (by omega)
  · cases h

theorem unwrittenBelow_of_ctrxInput {s : State} {f : Fault} (h : ctrxInput s = .error f) :
    UnwrittenBelow s .inA s.operands.lenA.toNat f := by
  obtain ⟨k, hk, hread⟩ := exists_of_readEach_error h
  exact unwrittenBelow_of_bufRead hread (List.mem_range.mp hk)

theorem unwrittenBelow_of_diffInput {s : State} {f : Fault} (h : diffInput s = .error f) :
    UnwrittenBelow s .inA s.operands.lenA.toNat f ∨ UnwrittenBelow s .inB s.operands.lenB.toNat f := by
  obtain ⟨k, hk, hread⟩ := exists_of_readEach_error h
  have hk := List.mem_range.mp hk
  unfold diffByte at hread
  split at hread
  next hA =>
    cases hread
    exact .inl (unwrittenBelow_of_bufReadAligned (le_max_left ..) hk hA)
  next =>
    split at hread
    next hB =>
      cases hread
      exact .inr (unwrittenBelow_of_bufReadAligned (le_max_right ..) hk hB)
    next => cases hread

theorem withInput_eq_fault {input : Except Fault (List Byte)} {effect : List Byte → State} {f : Fault}
    (h : withInput input effect = .fault f) : input = .error f := by
  cases input with
  | error e =>
    cases h
    rfl
  | ok bs => cases h

/-- A command that faults passed its checks. -/
theorem failedCheck_eq_none_of_fault {i : Instr} {s : State} {f : Fault} (h : exec i s = .fault f) :
    failedCheck i s = none := by
  obtain ⟨_, _, e⟩ | ⟨_, hc, _⟩ | ⟨_, hc, _⟩ := exec_cases i s
  · rw [e] at h
    cases h
  · exact hc
  · exact hc

/-- A command faults only while it reads its input. -/
theorem input_of_exec_fault {i : Instr} {s : State} {f : Fault} (h : exec i s = .fault f) :
    (i = .ctrx ∧ ctrxInput s = .error f) ∨ ((i = .xdif ∨ i = .hamd) ∧ diffInput s = .error f) := by
  have hc := failedCheck_eq_none_of_fault h
  cases i with
  | cblk => cases (afterChecks_passed hc _).symm.trans h
  | kstr => cases (afterChecks_passed hc _).symm.trans h
  | ctrx => exact .inl ⟨rfl, withInput_eq_fault ((afterChecks_passed hc _).symm.trans h)⟩
  | xdif => exact .inr ⟨.inl rfl, withInput_eq_fault ((afterChecks_passed hc _).symm.trans h)⟩
  | hamd => exact .inr ⟨.inr rfl, withInput_eq_fault ((afterChecks_passed hc _).symm.trans h)⟩

/-- The length check of a command that passed it, for the lengths it uses (`60_exceptions.md` R126). -/
theorem lengths_le_of_passed {i : Instr} {s : State} (hc : failedCheck i s = none) :
    (i = .kstr ∨ i = .ctrx → s.operands.lenA.toNat ≤ s.params.bufBytes) ∧
    (i = .xdif ∨ i = .hamd →
      s.operands.lenA.toNat ≤ s.params.bufBytes ∧ s.operands.lenB.toNat ≤ s.params.bufBytes) := by
  have hlen := (lengthOutOfRange_iff i s).not.mp (by simp [failedCheck_length hc])
  obtain ⟨hcipher, hanalyzer⟩ := not_or.mp hlen
  refine ⟨fun hi => not_lt.mp fun h => hcipher ⟨hi, h⟩, fun hi => ?_⟩
  obtain ⟨hA, hB⟩ := not_or.mp fun h => hanalyzer ⟨hi, h⟩
  exact ⟨not_lt.mp hA, not_lt.mp hB⟩

/-! ### The key (`10_state.md` R36) -/

/-- What a command answers, with another key in its next state. -/
def outcomeWithKey (k : Bytes16) : Host.Outcome State Fault Refusal → Host.Outcome State Fault Refusal
  | .next t => .next (t.withKey k)
  | .fault f => .fault f
  | .refused r => .refused r

theorem readReg_withKey (r : Reg) (s : State) (k : Bytes16) : readReg r (s.withKey k) = readReg r s := by
  cases r with
  | buf b j => cases b <;> rfl
  | _ => rfl

theorem busResponse_withKey (t : Transfer) (s : State) (k : Bytes16) :
    busResponse t (s.withKey k) = busResponse t s := by
  have hparams : (s.withKey k).params = s.params := rfl
  simp only [busResponse, hparams, readReg_withKey]

/-- The checks read KEY_LEN, and not KEY (`60_exceptions.md` R125). -/
theorem failedCheck_withKey (i : Instr) (s : State) (k : Bytes16) :
    failedCheck i (s.withKey k) = failedCheck i s := by
  cases i <;> rfl

theorem afterChecks_withKey (i : Instr) (s : State) (k : Bytes16) (e : Host.Outcome State Fault Refusal) :
    afterChecks i (s.withKey k) (outcomeWithKey k e) = outcomeWithKey k (afterChecks i s e) := by
  rw [afterChecks, afterChecks, failedCheck_withKey]
  cases failedCheck i s <;> rfl

theorem withInput_withKey (input : Except Fault (List Byte)) (effect : List Byte → State) (k : Bytes16) :
    withInput input (fun bs => (effect bs).withKey k) = outcomeWithKey k (withInput input effect) := by
  cases input <;> rfl

/-- A command that does not use the key answers the same with any key, the key apart. -/
theorem exec_withKey {i : Instr} (hi : i = .cblk ∨ i = .xdif ∨ i = .hamd) (s : State) (k : Bytes16) :
    exec i (s.withKey k) = outcomeWithKey k (exec i s) := by
  obtain rfl | rfl | rfl := hi
  · exact afterChecks_withKey .cblk s k (.next (s.writeOut (block s.operands.nonce s.operands.index).toList).complete)
  · refine Eq.trans ?_ (afterChecks_withKey .xdif s k _)
    rw [← withInput_withKey]
    rfl
  · refine Eq.trans ?_ (afterChecks_withKey .hamd s k _)
    rw [← withInput_withKey]
    rfl

/-! ### The obligations -/

/-- Settles O10: a next state of a command is an error completion or the command's effect. -/
theorem commandFrame : Obligations.CommandFrame := by
  intro i s t h
  refine ⟨sameOutsideCommand_of_exec h, ?_⟩
  obtain ⟨_, _, rfl⟩ | ⟨_, heffect⟩ := exec_next h
  · exact ⟨fun _ _ => rfl, rfl, rfl, fun _ => rfl, fun _ => rfl⟩
  · obtain ⟨hpending, hdone, _, _⟩ := heffect.succeeded
    refine ⟨heffect.sameOutsideOut, hpending, hdone, heffect.result_eq, ?_⟩
    rintro rfl
    exact heffect.outLen_eq

/-- Settles O11: the fault comes from the loop that reads the input, past the check of the lengths. -/
theorem faultNamesUnwrittenInputByte : Obligations.FaultNamesUnwrittenInputByte := by
  intro i s b k h
  obtain ⟨hcipher, hanalyzer⟩ := lengths_le_of_passed (failedCheck_eq_none_of_fault h)
  obtain ⟨rfl, hinput⟩ | ⟨hi, hinput⟩ := input_of_exec_fault h
  · obtain ⟨_, hk, hnone, ⟨⟩⟩ := unwrittenBelow_of_ctrxInput hinput
    exact ⟨.inl rfl, hnone, .inl ⟨rfl, hk, hcipher (.inr rfl)⟩⟩
  · obtain ⟨hlenA, hlenB⟩ := hanalyzer hi
    refine ⟨.inr hi, ?_⟩
    obtain ⟨_, hk, hnone, ⟨⟩⟩ | ⟨_, hk, hnone, ⟨⟩⟩ := unwrittenBelow_of_diffInput hinput
    · exact ⟨hnone, .inl ⟨rfl, hk, hlenA⟩⟩
    · exact ⟨hnone, .inr ⟨rfl, by rintro rfl; simp at hi, hk, hlenB⟩⟩

/-- Settles O45: no register read shows KEY, and neither the checks nor these commands read it. -/
theorem keyCannotBeReadBack : Obligations.KeyCannotBeReadBack := by
  intro s k
  refine ⟨fun t => busResponse_withKey t s k, fun i hi => ⟨fun t h => ?_, fun f h => ?_⟩⟩
  · rw [exec_withKey hi, h, outcomeWithKey]
  · rw [exec_withKey hi, h, outcomeWithKey]

end Sys2Proof.Machine
end

section
/-! PROOFS. The driver's check of the host reference, and the byte order of the cipher port
(`48_host_reference.md` R121, `10_state.md` R18). -/

namespace Sys2Proof.Machine

open Sys2Proof

theorem portVector_toNat (b : Bytes16) : (portVector b).toNat = beInt b.toList := by
  have hlt := beInt_lt b.toList
  rw [Vector.length_toList, pow_256] at hlt
  rw [portVector, BitVec.toNat_ofNat, Nat.mod_eq_of_lt hlt]

theorem getElem_beBytes (n v k : Nat) (h : k < (beBytes n v).length) :
    (beBytes n v)[k] = BitVec.ofNat 8 (v / 256 ^ (n - 1 - k)) := by
  induction n generalizing k with
  | zero => simp [beBytes] at h
  | succ n ih =>
    cases k with
    | zero => simp [beBytes]
    | succ k =>
      have hexp : n + 1 - 1 - (k + 1) = n - 1 - k := by omega
      simp only [beBytes, List.getElem_cons_succ, ih, hexp]

/-- Byte `k` of a 16-byte value is digit `15 - k`, in base 256, of its integer (`00_scope.md` R11). -/
theorem getElem_eq_beInt_digit (b : Bytes16) (k : Nat) (h : k < 16) :
    b[k] = BitVec.ofNat 8 (beInt b.toList / 256 ^ (15 - k)) := by
  have hbytes := getElem_beBytes 16 (beInt b.toList) k (by simpa [length_beBytes] using h)
  rw [← hbytes]
  conv_lhs => rw [← beBytes16_beInt b]
  rfl

/-- Settles O28: the corruptor keeps the length, and one keystream on both sequences keeps their distance. -/
theorem driverCheckNeverFails : Obligations.DriverCheckNeverFails := by
  intro E k n plaintext m
  have hlen : (ctrApply E k n 0 plaintext).length = (corrupt (ctrApply E k n 0 plaintext) m).length :=
    (length_corruptWith _ _).symm
  rw [driverCheck]
  exact if_pos (hammingDistance_ctrApply E k n 0 hlen)

/-- Settles O29: bits `[127-8k : 120-8k]` of the port are the digit `15 - k`, in base 256, of the value's integer. -/
theorem cipherPortByteOrder : Obligations.CipherPortByteOrder := by
  intro b k h
  refine ⟨?_, portVector_toNat b⟩
  have hexp : 8 * (15 - k) = 120 - 8 * k := by omega
  rw [getElem_eq_beInt_digit b k h, BitVec.extractLsb', portVector_toNat, Nat.shiftRight_eq_div_pow, pow_256, hexp]

end Sys2Proof.Machine
end

section
/-! PROOFS. The decoder on encoded words, and the turns of the engine, the host and the reset input
(`30_encoding.md` R70, `10_state.md` R16, `70_reset_and_hazards.md` R146, R158, R162). -/

namespace Sys2Proof.Machine

open Sys2Proof

/-! ### The turn that a step takes (`10_state.md` R16) -/

section Turns

variable {s : State} (hu : s.unwrittenRead = none)

include hu

theorem step_of_engine_turn {r : List Turn} (h : s.schedule = .engine :: r) :
    step s = engineStep (s.setSchedule r) := by
  rw [step_of_no_record hu, takeTurn, h]

theorem step_of_host_turn {r : List Turn} (h : s.schedule = .host :: r) :
    step s = .next (hostStep (s.setSchedule r)) := by
  rw [step_of_no_record hu, takeTurn, h]

theorem step_of_no_turn (h : s.schedule = []) :
    step s = if s.busy then engineStep s else .next (hostStep s) := by
  rw [step_of_no_record hu, takeTurn, h]

end Turns

/-- The reset event takes its turn whether or not a fault is recorded (`70_reset_and_hazards.md` R146). -/
theorem step_of_reset_turn {s : State} {r : List Turn} (h : s.schedule = .rstN :: r) :
    step s = .next (s.setSchedule r).resetEvent := by
  have hr : s.schedule.head? = some .rstN := by rw [h, List.head?_cons]
  obtain ⟨hne, _⟩ | ⟨hne, _⟩ | ⟨hne, _⟩ | ⟨_, e⟩ := step_cases s
  · exact absurd hr hne
  · exact absurd hr hne
  · exact absurd hr hne
  · rw [e, State.turnTaken, h, List.tail_cons]

theorem step_of_record {s : State} {f : Fault} (hf : s.unwrittenRead = some f)
    (hr : s.schedule.head? ≠ some .rstN) : step s = .fault f := by
  unfold step advance
  rw [hf]
  exact if_neg hr

/-! ### The engine's step with a word pending (`10_state.md` R16, R38) -/

theorem engineStep_of_exec_next {s t : State} {w : Word} {i : Instr} (hw : s.pending = some w)
    (hi : decode s.params.hasBitdiff w = .ok i) (h : exec i s = .next t) : engineStep s = .next t := by
  rw [engineStep_of_decode hw hi, h, recordFault_next]

theorem engineStep_of_exec_fault {s : State} {w : Word} {i : Instr} {f : Fault} (hw : s.pending = some w)
    (hi : decode s.params.hasBitdiff w = .ok i) (h : exec i s = .fault f) :
    engineStep s = .next (s.recordUnwrittenRead f) := by
  rw [engineStep_of_decode hw hi, h, recordFault_fault]

theorem exec_next_or_fault (i : Instr) (s : State) : (∃ t, exec i s = .next t) ∨ ∃ f, exec i s = .fault f := by
  obtain ⟨t, h, _⟩ | ⟨f, h, _⟩ := recordFault_exec i s
  · exact .inl ⟨t, h⟩
  · exact .inr ⟨f, h⟩

theorem busy_eq_false_of_exec {i : Instr} {s t : State} (h : exec i s = .next t) : t.busy = false := by
  obtain ⟨c, _, rfl⟩ | ⟨_, heffect⟩ := exec_next h
  · exact s.raiseCmdError_busy c
  · exact t.busy_eq_false_iff.mpr heffect.succeeded.1

/-- The engine's step ends the pending command or records its fault. -/
theorem engineStep_ends_command {s : State} (h : s.busy = true) :
    ∃ t, engineStep s = .next t ∧ (t.busy = false ∨ t.unwrittenRead ≠ none) := by
  obtain ⟨w, hw⟩ := State.pending_of_busy h
  obtain ⟨hnone, _⟩ | ⟨_, _, _, _, e⟩ | ⟨_, _, _, _, ⟨t, hexec, e⟩ | ⟨f, _, e⟩⟩ := engineStep_cases s
  · rw [hnone] at hw
    cases hw
  · exact ⟨_, e, .inl (s.raiseCmdError_busy _)⟩
  · exact ⟨t, e, .inl (busy_eq_false_of_exec hexec)⟩
  · exact ⟨_, e, .inr (by simp)⟩

/-! ### What the host's turn leaves (`70_reset_and_hazards.md` R150) -/

/-- What no access changes and no bus error erases, whatever BUSY is. -/
structure HostFrame (s t : State) : Prop where
  outLen : t.outLen = s.outLen
  result : t.result = s.result
  unwrittenRead : t.unwrittenRead = s.unwrittenRead
  schedule : t.schedule = s.schedule
  busErrors : s.busErrors ⊆ t.busErrors

theorem HostFrame.refl (s : State) : HostFrame s s := ⟨rfl, rfl, rfl, rfl, List.Subset.refl _⟩

theorem HostFrame.writeReg (r : Reg) (w : Word) (s : State) : HostFrame s (writeReg r w s) := by
  obtain ⟨_, houtLen, hresult, herrors, hrecord, _, hschedule, _⟩ := writeReg_frame r w s
  exact ⟨houtLen, hresult, hrecord, hschedule, herrors ▸ List.Subset.refl _⟩

theorem HostFrame.busEffect (x : Transfer) (s : State) : HostFrame s (busEffect x s) := by
  obtain e | ⟨_, _, e⟩ | ⟨r, w, _, e⟩ := busEffect_cases x s
  all_goals rw [e]
  · exact ⟨rfl, rfl, rfl, rfl, List.subset_cons_self _ _⟩
  · exact ⟨rfl, rfl, rfl, rfl, List.Subset.refl _⟩
  · exact HostFrame.writeReg r w s

theorem HostFrame.hostStep (s : State) : HostFrame s (hostStep s) := by
  obtain e | ⟨x, _, e⟩ := hostStep_cases s
  · rw [e]
    exact .refl s
  · rw [e]
    have hframe := HostFrame.busEffect x s
    exact ⟨hframe.outLen, hframe.result, hframe.unwrittenRead, hframe.schedule, hframe.busErrors⟩

theorem busEffect_pending_of_busy {s : State} (h : s.busy = true) (x : Transfer) :
    (busEffect x s).pending = s.pending := by
  obtain e | ⟨_, _, e⟩ | ⟨r, w, _, e⟩ := busEffect_cases x s
  · rw [e, State.recordBusError_pending]
  · rw [e]
  · obtain ⟨_, _, hwrite⟩ := writeReg_busy h r w
    rw [e, hwrite]

/-- The host cannot take back a pending command. -/
theorem hostStep_pending_of_busy {s : State} (h : s.busy = true) : (hostStep s).pending = s.pending := by
  obtain e | ⟨x, _, e⟩ := hostStep_cases s
  · rw [e]
  · rw [e]
    exact busEffect_pending_of_busy h x

/-! ### The obligations -/

/-- Settles O2, by what the decoder gives for an encoded word. -/
theorem decodeOfEncode : Obligations.DecodeOfEncode := by
  intro hb i hwf
  rw [decode_encode, if_pos hwf]

/-- Settles O3: five encoded words, MBZ bits that are set, a reserved opcode, and HAMD without the analyzer. -/
theorem opcodeMapWordsDecode : Obligations.OpcodeMapWordsDecode :=
  ⟨decode_encode true .cblk, decode_encode true .kstr, decode_encode true .ctrx, decode_encode true .xdif,
    decode_encode true .hamd, decode_of_mbzField_ne_zero true (by decide),
    decode_of_reservedOp true (by decide) ((reservedOp_iff _).mpr (.inr (by decide))), decode_encode false .hamd⟩

/-- Settles O4: the step is the engine's, with or without a turn to take off the schedule. -/
theorem stepExecutesPendingCommand : Obligations.StepExecutesPendingCommand := by
  intro s w hw hu
  have hfree : s.schedule = [] → step s = engineStep s := fun h =>
    (step_of_no_turn hu h).trans (if_pos (State.busy_of_pending hw))
  have hturn : ∀ r, s.schedule = .engine :: r → step s = engineStep (s.setSchedule r) := fun r =>
    step_of_engine_turn hu
  refine ⟨fun i hi => ⟨fun h => ⟨fun t ht => ?_, fun f hf => ?_⟩, fun r h => ⟨fun t ht => ?_, fun f hf => ?_⟩,
    exec_next_or_fault i s⟩, fun e he => ⟨fun h => ?_, fun r h => ?_⟩⟩
  · exact (hfree h).trans (engineStep_of_exec_next hw hi ht)
  · exact (hfree h).trans (engineStep_of_exec_fault hw hi hf)
  · exact (hturn r h).trans (engineStep_of_exec_next hw hi ht)
  · exact (hturn r h).trans (engineStep_of_exec_fault hw hi hf)
  · exact (hfree h).trans (engineStep_of_illegal hw he)
  · exact (hturn r h).trans (engineStep_of_illegal (s := s.setSchedule r) hw he)

/-- Settles O5: the word is pending, no fault is recorded, and the engine's turn is next. -/
theorem stepRunsFetchedWord : Obligations.StepRunsFetchedWord := by
  intro s w i hlt hi u
  have hlatch : s.withFetchWord 32 w = s.latchWord (BitVec.ofNat 32 w) := by
    rw [State.withFetchWord, Nat.mod_eq_of_lt hlt]
  have hstep : step (s.withFetchWord 32 w) = engineStep u := by
    rw [hlatch]
    exact step_of_engine_turn (s.latchWord_unwrittenRead _) (s.latchWord_schedule _)
  refine ⟨fun t ht => ?_, fun f hf => ?_⟩
  · exact hstep.trans (engineStep_of_exec_next (s := u) rfl hi ht)
  · exact hstep.trans (engineStep_of_exec_fault (s := u) rfl hi hf)

/-- Settles O6: with nothing pending the engine's step is not enabled. -/
theorem engineIdleWithoutCommand : Obligations.EngineIdleWithoutCommand := by
  intro s r hpending hu h
  have hidle : (s.setSchedule r).pending = none := hpending
  rw [step_of_engine_turn hu h, engineStep, hidle]
  rfl

/-- Settles O7, by the turn of the host, and by the choice with no turn fixed. -/
theorem stepRunsHostOperation : Obligations.StepRunsHostOperation := by
  intro s hu
  refine ⟨fun r => step_of_host_turn hu, fun h hpending => ?_⟩
  have hidle : ¬ s.busy = true := by simp [State.busy, hpending]
  exact (step_of_no_turn hu h).trans (if_neg hidle)

/-- Settles O51: the turn of the reset input is the reset event. -/
theorem resetEventAbandonsCommand : Obligations.ResetEventAbandonsCommand :=
  fun _ _ h => ⟨step_of_reset_turn h, rfl⟩

/-- Settles O57: the record makes every other turn stop, and the reset event empties it. -/
theorem onlyResetFollowsUnwrittenRead : Obligations.OnlyResetFollowsUnwrittenRead := by
  intro s f hf
  refine ⟨fun ⟨_, _, _, hnone⟩ => ?_, step_of_record hf, fun r h => ⟨_, step_of_reset_turn h, rfl, rfl, rfl⟩⟩
  rw [hf] at hnone
  cases hnone

/-- Settles O53, by induction on the fixed turns: the host's turns keep the command pending until an engine's turn, or
until none is left. -/
theorem pendingCommandCompletes : Obligations.PendingCommandCompletes := by
  intro s hbusy hu hreset
  induction hs : s.schedule generalizing s with
  | nil =>
    refine ⟨0, s, le_rfl, rfl, rfl, ?_⟩
    rw [step_of_no_turn hu hs, if_pos hbusy]
    exact engineStep_ends_command hbusy
  | cons turn r ih =>
    cases turn with
    | engine =>
      refine ⟨0, s, Nat.zero_le _, rfl, rfl, ?_⟩
      rw [step_of_engine_turn hu hs]
      exact engineStep_ends_command hbusy
    | host =>
      set u := hostStep (s.setSchedule r)
      have hframe : HostFrame (s.setSchedule r) u := .hostStep _
      have hpending : u.pending = s.pending := hostStep_pending_of_busy (s := s.setSchedule r) hbusy
      have hubusy : u.busy = true := by rw [State.busy, hpending]; exact hbusy
      have hur : .rstN ∉ u.schedule := by
        rw [hframe.schedule]
        exact fun h => hreset (hs ▸ List.mem_cons_of_mem _ h)
      obtain ⟨k, v, hk, hsteps, hv, hends⟩ := ih u hubusy (hframe.unwrittenRead.trans hu) hur hframe.schedule
      exact ⟨k + 1, v, Nat.succ_le_succ hk, ⟨u, step_of_host_turn hu hs, hsteps⟩, hv.trans hpending, hends⟩
    | rstN => exact absurd (by simp [hs]) hreset

end Sys2Proof.Machine
end

section
/-! PROOFS. The register map on the bus: reads and writes of each register, the buffers by words, and bus errors
(`10_state.md` R23 to R38, `20_memory.md` R50 to R60). -/

namespace Sys2Proof.Machine

open Sys2Proof

/-! ### The rows of the register map below 0x00060 (`10_state.md` R23) -/

theorem registerMap_aligned : ∀ x ∈ registerMap, x.1 % 4 = 0 ∧ (x.1 < 0x34 ∨ (0x40 ≤ x.1 ∧ x.1 < 0x60)) := by
  decide

theorem registerMap_lookup_isSome :
    ∀ j < 24, 4 * j < 0x34 ∨ 0x40 ≤ 4 * j → (registerMap.lookup (4 * j)).isSome = true := by decide

theorem registerMap_lookup_key :
    ∀ j : Fin 4, registerMap.lookup (BitVec.ofNat 18 (0x40 + 4 * j)).toNat = some (.key j) := by decide

theorem registerMap_lookup_nonce :
    ∀ j : Fin 4, registerMap.lookup (BitVec.ofNat 18 (0x50 + 4 * j)).toNat = some (.nonce j) := by decide

theorem regAt_of_lookup (p : Params) {off : Nat} {r : Reg} (h : registerMap.lookup off = some r) :
    regAt p off = some r := by
  rw [regAt, h]

section Row

variable {off : Offset} {r : Reg} (h : registerMap.lookup off.toNat = some r)

include h

theorem busResponse_of_lookup (s : State) :
    busResponse (readAt off) s = { data := readReg r s, buserr := false } :=
  busResponse_read s (registerMap_aligned _ (mem_of_lookup h)).1 (regAt_of_lookup _ h)

theorem busEffect_of_lookup (s : State) (w : Word) : busEffect (writeAt off w) s = writeReg r w s :=
  busEffect_write s (registerMap_aligned _ (mem_of_lookup h)).1 (regAt_of_lookup _ h)

/-- While BUSY = 0 a guarded write takes effect (`20_memory.md` R57). -/
theorem busEffect_idle_of_lookup {s t : State} {w : Word} (hidle : s.busy = false)
    (hwrite : writeReg r w s = s.guarded t) : busEffect (writeAt off w) s = t := by
  rw [busEffect_of_lookup h, hwrite, State.guarded_idle hidle]

end Row

/-! ### Where the map lists a register (`20_memory.md` R60) -/

theorem listed_of_regAt {p : Params} {off : Nat} {r : Reg} (h : regAt p off = some r) : Listed p.bufBytes off := by
  unfold regAt at h
  split at h
  next hrow =>
    have hlow := (registerMap_aligned _ (mem_of_lookup hrow)).2
    exact hlow.imp_right .inl
  next =>
    obtain ⟨b, k, _, hk, rfl, _⟩ := bufferAt_eq_buf h
    refine .inr (.inr ?_)
    unfold inBuffers
    cases b <;> simp only [Buffer.base] <;> omega

theorem regAt_of_listed {p : Params} {off : Nat} (hp : p.bufBytes ≤ 0x10000) (h4 : off % 4 = 0)
    (h : Listed p.bufBytes off) : ∃ r, regAt p off = some r := by
  have row : off < 0x60 → off < 0x34 ∨ 0x40 ≤ off → ∃ r, regAt p off = some r := by
    intro hlt hor
    obtain ⟨j, rfl⟩ := Nat.dvd_of_mod_eq_zero h4
    obtain ⟨r, hr⟩ := Option.isSome_iff_exists.mp (registerMap_lookup_isSome j (by omega) hor)
    exact ⟨r, regAt_of_lookup p hr⟩
  obtain h | h | h | h | h := h
  · exact row (by omega) (.inl h)
  · exact row h.2 (.inr h.1)
  · exact ⟨_, regAt_of_window p .inA hp h⟩
  · exact ⟨_, regAt_of_window p .inB hp h⟩
  · exact ⟨_, regAt_of_window p .out hp h⟩

/-- An access reaches a register exactly when it is 4 bytes wide, aligned, and at a listed offset. -/
theorem target_eq_none_iff {t : Transfer} {p : Params} (hp : p.bufBytes ≤ 0x10000) :
    t.target p = none ↔ ¬ (t.size = .four ∧ t.off.toNat % 4 = 0 ∧ Listed p.bufBytes t.off.toNat) := by
  rw [← not_iff_not, not_not, ← Ne, Option.ne_none_iff_exists']
  constructor
  · rintro ⟨r, hr⟩
    obtain ⟨⟨hsize, h4⟩, hreg⟩ := target_eq_some hr
    exact ⟨hsize, h4, listed_of_regAt hreg⟩
  · rintro ⟨hsize, h4, hlisted⟩
    obtain ⟨r, hr⟩ := regAt_of_listed hp h4 hlisted
    exact ⟨r, (target_of_wf p ⟨hsize, h4⟩).trans hr⟩

theorem busResponse_of_no_target {t : Transfer} {s : State} (h : t.target s.params = none) :
    busResponse t s = { data := 0, buserr := true } := by
  rw [busResponse, h]

theorem busEffect_of_no_target {t : Transfer} {s : State} (h : t.target s.params = none) :
    busEffect t s = s.recordBusError t.off := by
  rw [busEffect, h]

theorem buserr_iff (t : Transfer) (s : State) : (busResponse t s).buserr = true ↔ t.target s.params = none := by
  constructor
  · intro h
    unfold busResponse at h
    split at h
    next hnone => exact hnone
    next => split at h <;> cases h
  · intro h
    rw [busResponse_of_no_target h]

/-! ### Buffer words (`20_memory.md` R57 to R59) -/

/-- The offset of a buffer byte fits the 18 bits of the window. -/
theorem toNat_bufferOffset (b : Buffer) {k : Nat} (hk : k < 0x10000) :
    (BitVec.ofNat 18 (b.base + k)).toNat = b.base + k := by
  rw [BitVec.toNat_ofNat]
  apply Nat.mod_eq_of_lt
  cases b <;> simp only [Buffer.base] <;> omega

theorem Buffer.base_aligned (b : Buffer) : b.base % 4 = 0 := by cases b <;> rfl

section BufferWord

variable {s : State} (b : Buffer) {k : Nat} (hwf : s.params.wf) (h4 : k % 4 = 0) (hk : k < s.params.bufBytes)

include hwf h4 hk

/-- An aligned index below `BUF_BYTES` has an aligned offset that names the word there. -/
theorem bufferWord_offset :
    (BitVec.ofNat 18 (b.base + k)).toNat % 4 = 0 ∧
    regAt s.params (BitVec.ofNat 18 (b.base + k)).toNat = some (.buf b k) := by
  obtain ⟨_, _, hmax⟩ := hwf
  have hbase := b.base_aligned
  rw [toNat_bufferOffset b (by omega)]
  exact ⟨by omega, regAt_base s.params b k hmax hk⟩

theorem busResponse_bufferWord :
    busResponse (readAt (BitVec.ofNat 18 (b.base + k))) s = { data := readReg (.buf b k) s, buserr := false } :=
  have ⟨hoff, hreg⟩ := bufferWord_offset b hwf h4 hk
  busResponse_read s hoff hreg

theorem busEffect_read_bufferWord :
    busEffect (readAt (BitVec.ofNat 18 (b.base + k))) s = { s with draws := s.draws + 4 } :=
  have ⟨hoff, hreg⟩ := bufferWord_offset b hwf h4 hk
  busEffect_read s hoff hreg

theorem busEffect_write_bufferWord (w : Word) :
    busEffect (writeAt (BitVec.ofNat 18 (b.base + k)) w) s = writeReg (.buf b k) w s :=
  have ⟨hoff, hreg⟩ := bufferWord_offset b hwf h4 hk
  busEffect_write s hoff hreg

end BufferWord

theorem writeReg_input_idle {s : State} {b : Buffer} (hb : b = .inA ∨ b = .inB) (hidle : s.busy = false) (k : Nat)
    (w : Word) : writeReg (.buf b k) w s = s.setBufLanes b k w := by
  obtain rfl | rfl := hb <;> exact State.guarded_idle hidle _

theorem readReg_input (s : State) {b : Buffer} (hb : b = .out → s.busy = false) (k : Nat) :
    readReg (.buf b k) s = hostLanes s b k := by
  cases b with
  | inA | inB => rfl
  | out => simp [readReg, hb rfl]

theorem bufByte_setBufLanes (s : State) (b : Buffer) (k : Nat) (w : Word) (i : Fin 4) :
    (s.setBufLanes b k w).bufByte b (k + i) = some (lane w i) := by
  have hin : b.base + k ≤ b.base + (k + i) ∧ b.base + (k + i) < b.base + k + 4 := by omega
  have hidx : b.base + (k + i) - (b.base + k) = i := by omega
  rw [State.bufByte, State.setBufLanes_mem, Memory.read?_writeBytes]
  simp only [List.length_cons, List.length_nil, Nat.zero_add, Nat.reduceAdd, if_pos hin, hidx]
  fin_cases i <;> rfl

theorem read?_setBufLanes_outside (s : State) (b : Buffer) (k : Nat) (w : Word) {a : Nat}
    (h : ¬ (b.base + k ≤ a ∧ a < b.base + k + 4)) : (s.setBufLanes b k w).mem.read? a = s.mem.read? a := by
  rw [State.setBufLanes_mem, Memory.read?_writeBytes]
  exact if_neg h

/-- A buffer word reads back (`20_memory.md` R59). -/
theorem hostLanes_setBufLanes (s : State) (b : Buffer) (k : Nat) (w : Word) :
    hostLanes (s.setBufLanes b k w) b k = w := by
  have h0 : (s.setBufLanes b k w).bufByte b k = some (lane w 0) := bufByte_setBufLanes s b k w 0
  have h1 : (s.setBufLanes b k w).bufByte b (k + 1) = some (lane w 1) := bufByte_setBufLanes s b k w 1
  have h2 : (s.setBufLanes b k w).bufByte b (k + 2) = some (lane w 2) := bufByte_setBufLanes s b k w 2
  have h3 : (s.setBufLanes b k w).bufByte b (k + 3) = some (lane w 3) := bufByte_setBufLanes s b k w 3
  rw [hostLanes, h0, h1, h2, h3]
  exact laneWord_lane w

/-- Each lane of a buffer word is the byte there, or a draw (`10_state.md` R41). -/
theorem lane_hostLanes (s : State) (b : Buffer) (k : Nat) (i : Fin 4) :
    lane (hostLanes s b k) i = (s.bufByte b (k + i)).getD (Config.any8 (s.draws + i)) := by
  obtain ⟨h0, h1, h2, h3⟩ := lane_laneWord ((s.bufByte b k).getD (Config.any8 s.draws))
    ((s.bufByte b (k + 1)).getD (Config.any8 (s.draws + 1))) ((s.bufByte b (k + 2)).getD (Config.any8 (s.draws + 2)))
    ((s.bufByte b (k + 3)).getD (Config.any8 (s.draws + 3)))
  fin_cases i
  · exact h0
  · exact h1
  · exact h2
  · exact h3

/-! ### Registers of 16 bytes and of 8 bits (`10_state.md` R29, R30, R36, R37) -/

theorem lane_lanes16 (v : Bytes16) (j i : Fin 4) : lane (lanes16 v j) i = v[4 * j.val + i.val] := by
  obtain ⟨h0, h1, h2, h3⟩ :=
    lane_laneWord v[4 * j.val] v[4 * j.val + 1] v[4 * j.val + 2] v[4 * j.val + 3]
  fin_cases i
  · exact h0
  · exact h1
  · exact h2
  · exact h3

theorem setWidth_setWidth_8 (w : Word) : (w.setWidth 8).setWidth 32 = w &&& 0xFF := by
  apply BitVec.eq_of_toNat_eq
  have hmask : (0xFF : Word).toNat = 2 ^ 8 - 1 := rfl
  rw [BitVec.toNat_and, hmask, Nat.and_two_pow_sub_one_eq_mod, BitVec.toNat_setWidth, BitVec.toNat_setWidth]
  omega

theorem toNat_setWidth_32 (b : Byte) : (b.setWidth 32).toNat = b.toNat := by
  rw [BitVec.toNat_setWidth]
  omega

/-! ### The obligations -/

/-- Settles O32, by the writes of the two registers. -/
theorem ctrlAndStatusWritesTakeEffect : Obligations.CtrlAndStatusWritesTakeEffect := by
  intro s w
  rw [busEffect_write_ctrl, busEffect_write_status]
  have clears : ∀ a b : Bool, (a && !b) = if b then false else a := by decide
  exact ⟨rfl, rfl, clears _ _, clears _ _, rfl, clears _ _⟩

/-- Settles O33: each listed offset names a register whose write does nothing. -/
theorem readOnlyWritesAreIgnored : Obligations.ReadOnlyWritesAreIgnored := by
  intro s off w ⟨_, _, hmax⟩ h4 hoff
  obtain rfl | rfl | rfl | rfl | hout := hoff
  · exact busEffect_of_lookup (r := .id) rfl s w
  · exact busEffect_of_lookup (r := .caps) rfl s w
  · exact busEffect_of_lookup (r := .outLen) rfl s w
  · exact busEffect_of_lookup (r := .result) rfl s w
  · exact busEffect_write s h4 (regAt_of_window _ .out hmax hout)

/-- Settles O34: the write is that of the four lanes, and the lanes of the word are the word. -/
theorem bufferWriteSetsLanesAndReadsBack : Obligations.BufferWriteSetsLanesAndReadsBack := by
  intro s b k w hwf hidle hb h4 hk off t
  have ht : t = s.setBufLanes b k w :=
    (busEffect_write_bufferWord b hwf h4 hk w).trans (writeReg_input_idle hb hidle k w)
  have hread : busResponse (readAt off) (s.setBufLanes b k w) = { data := w, buserr := false } := by
    rw [busResponse_bufferWord (s := s.setBufLanes b k w) b hwf h4 hk,
      readReg_input (s.setBufLanes b k w) (fun _ => hidle), hostLanes_setBufLanes]
  rw [ht]
  exact ⟨rfl, bufByte_setBufLanes s b k w 0, bufByte_setBufLanes s b k w 1, bufByte_setBufLanes s b k w 2,
    bufByte_setBufLanes s b k w 3, fun a => read?_setBufLanes_outside s b k w, hread⟩

/-- Settles O35, by the lanes of a 16-byte register. -/
theorem keyAndNonceWordsByLanes : Obligations.KeyAndNonceWordsByLanes := by
  intro s j w hidle
  constructor
  · rw [busEffect_idle_of_lookup (registerMap_lookup_nonce j) hidle rfl]
    refine ⟨rfl, getElem_setLanes16 _ j w, getElem_setLanes16_ne _ j w, ?_⟩
    rw [busResponse_of_lookup (registerMap_lookup_nonce j), readReg, lanes16_setLanes16]
  · rw [busEffect_idle_of_lookup (registerMap_lookup_key j) hidle rfl]
    exact ⟨rfl, getElem_setLanes16 _ j w, getElem_setLanes16_ne _ j w,
      busResponse_of_lookup (registerMap_lookup_key j) _⟩

/-- Settles O36, by the guarded write and the read of each register. -/
theorem operandRegistersReadBack : Obligations.OperandRegistersReadBack := by
  intro s w hidle
  have hread : ∀ {off : Offset} {r : Reg} (t : State), registerMap.lookup off.toNat = some r →
      (busResponse (readAt off) t).data = readReg r t := fun t h => by rw [busResponse_of_lookup h]
  refine ⟨?_, ?_, ?_, ?_, ?_, ?_⟩
  · rw [busEffect_idle_of_lookup (r := .keyLen) rfl hidle rfl]
    exact ⟨rfl, (hread (r := .keyLen) _ rfl).trans (setWidth_setWidth_8 w)⟩
  · rw [busEffect_idle_of_lookup (r := .nonceLen) rfl hidle rfl]
    exact ⟨rfl, (hread (r := .nonceLen) _ rfl).trans (setWidth_setWidth_8 w)⟩
  · rw [busEffect_idle_of_lookup (r := .lenA) rfl hidle rfl]
    exact ⟨rfl, hread (r := .lenA) _ rfl⟩
  · rw [busEffect_idle_of_lookup (r := .lenB) rfl hidle rfl]
    exact ⟨rfl, hread (r := .lenB) _ rfl⟩
  · rw [busEffect_idle_of_lookup (r := .indexLo) rfl hidle rfl]
    refine ⟨rfl, hread (r := .indexLo) _ rfl, ?_⟩
    rw [Operands.index, Nat.mul_add_mod_self_right, Nat.mod_eq_of_lt w.isLt]
  · rw [busEffect_idle_of_lookup (r := .indexHi) rfl hidle rfl]
    refine ⟨rfl, hread (r := .indexHi) _ rfl, ?_⟩
    have hlo := s.operands.indexLo.isLt
    simp only [Operands.index]
    omega

/-- Settles O37: an access has no register exactly off the map, and then it is only recorded. -/
theorem busErrorExactlyOffTheMap : Obligations.BusErrorExactlyOffTheMap := by
  intro t s ⟨_, _, hmax⟩
  rw [buserr_iff]
  refine ⟨target_eq_none_iff hmax, fun hnone => ⟨fun _ => ?_, busEffect_of_no_target hnone⟩⟩
  rw [busResponse_of_no_target hnone]

/-- Settles O39: the read of a register moves the counter of draws at most. -/
theorem readsHaveNoSideEffect : Obligations.ReadsHaveNoSideEffect := by
  intro t s hread hok
  have hsome : t.target s.params ≠ none := fun hnone => by simp [busResponse_of_no_target hnone] at hok
  obtain ⟨r, hr⟩ := Option.ne_none_iff_exists'.mp hsome
  refine ⟨s.draws + drawsOf r, ?_, Nat.le_add_right _ _⟩
  simp only [busEffect, hr, hread]

/-- Settles O40, by the fields of the word STATUS reads as. -/
theorem statusWordLayout : Obligations.StatusWordLayout := by
  intro s
  rw [busResponse_of_lookup (r := .status) rfl]
  exact ⟨rfl, statusWord_fields s.status.done s.status.err s.status.werr s.busy s.status.errcode⟩

/-- Settles O42, by the read of each register. -/
theorem ctrlCmdAndIdleResultReads : Obligations.CtrlCmdAndIdleResultReads := by
  intro s
  rw [busResponse_of_lookup (r := .ctrl) rfl, busResponse_of_lookup (r := .cmd) rfl,
    busResponse_of_lookup (r := .outLen) rfl, busResponse_of_lookup (r := .result) rfl]
  refine ⟨?_, rfl, fun hidle => ?_⟩
  · cases h : s.ie <;> simp [readReg, h]
  · simp [readReg, hidle]

/-- Settles O43: the three kinds of offset name the registers that hold results. -/
theorem busyResultReadsAreFreeDraws : Obligations.BusyResultReadsAreFreeDraws := by
  intro s off ⟨_, _, hmax⟩ hbusy h4 hoff
  obtain ⟨r, hreg, hdata, hdraws⟩ : ∃ r, regAt s.params off.toNat = some r ∧
      readReg r s = Config.any32 s.draws ∧ 0 < drawsOf r := by
    obtain rfl | rfl | hout := hoff
    · exact ⟨.outLen, rfl, if_pos hbusy, Nat.one_pos⟩
    · exact ⟨.result, rfl, if_pos hbusy, Nat.one_pos⟩
    · exact ⟨_, regAt_of_window _ .out hmax hout, if_pos hbusy, Nat.succ_pos 3⟩
  rw [busResponse_read s h4 hreg, busEffect_read s h4 hreg, hdata]
  exact ⟨rfl, Nat.lt_add_of_pos_right hdraws⟩

/-- Settles O44: each lane of the word is the byte there, or a draw. -/
theorem hostReadsGiveWrittenBytes : Obligations.HostReadsGiveWrittenBytes := by
  intro s b k hwf hb h4 hk r
  have hr : r = { data := hostLanes s b k, buserr := false } := by
    rw [← readReg_input s hb]
    exact busResponse_bufferWord b hwf h4 hk
  have hlane (i : Fin 4) : r.data.extractLsb' (8 * i) 8 =
      (s.bufByte b (k + i)).getD (Config.any8 (s.draws + i)) := by
    rw [hr]
    exact lane_hostLanes s b k i
  refine ⟨by rw [hr], fun i => ⟨fun v hv => ?_, fun hnone => ?_⟩, ?_⟩
  · rw [hlane, hv, Option.getD_some]
  · rw [hlane, hnone, Option.getD_none]
  · rw [busEffect_read_bufferWord b hwf h4 hk]

/-- Settles O58, by the read of each register, which does not ask for BUSY. -/
theorem operandReadsGiveCurrentValues : Obligations.OperandReadsGiveCurrentValues := by
  intro s
  rw [busResponse_of_lookup (r := .keyLen) rfl, busResponse_of_lookup (r := .nonceLen) rfl,
    busResponse_of_lookup (r := .lenA) rfl, busResponse_of_lookup (r := .lenB) rfl,
    busResponse_of_lookup (r := .indexLo) rfl, busResponse_of_lookup (r := .indexHi) rfl]
  refine ⟨toNat_setWidth_32 _, toNat_setWidth_32 _, rfl, rfl, rfl, rfl, fun j => ⟨?_, fun i => ?_⟩⟩
  · rw [busResponse_of_lookup (registerMap_lookup_key j), readReg]
  · rw [busResponse_of_lookup (registerMap_lookup_nonce j)]
    exact lane_lanes16 s.operands.nonce j i

end Sys2Proof.Machine
end

section
/-! PROOFS. The host agent: its one access a step, its checks and its polling, what its steps leave alone, and the
loading of KEY and NONCE (`30_encoding.md` R78 to R80, `20_memory.md` R60, R62). -/

namespace Sys2Proof.Machine

open Sys2Proof

/-! ### The host's step at an operation (`30_encoding.md` R78) -/

theorem hostStep_of_program {s : State} {op : HostOp} {rest : List HostOp} (h : s.master.program = op :: rest) :
    hostStep s = hostOp op rest s := by
  rw [hostStep, h]

theorem hostOp_program {op : HostOp} (hop : op ≠ .poll) (rest : List HostOp) (s : State) :
    (hostOp op rest s).master.program = rest := by
  cases op with
  | poll => exact absurd rfl hop
  | xfer | rdx | rdm => rfl

/-- Bit 0 of the word a `poll` reads is BUSY. -/
theorem poll_reads_busy (s : State) : (busResponse HostOp.poll.access s).data.getLsbD 0 = s.busy := by
  rw [HostOp.access, busResponse_of_lookup (r := .status) rfl]
  exact (statusWord_fields s.status.done s.status.err s.status.werr s.busy s.status.errcode).1

theorem hostOp_poll (rest : List HostOp) (s : State) :
    hostOp .poll rest s =
      if s.busy then perform HostOp.poll.access s else (perform HostOp.poll.access s).setProgram rest := by
  simp only [hostOp, poll_reads_busy]

/-- An access adds to the host's record and changes nothing else of it. -/
theorem perform_master (x : Transfer) (s : State) :
    (perform x s).master =
      { s.master with trace := { xfer := x, resp := busResponse x s } :: s.master.trace } := by
  simp [perform]

/-- The check of an operation fails on the word it read: `rdx` compares it with its constant, `rdm` the word under its
mask, and the other operations check nothing. -/
def HostOp.CheckFails (op : HostOp) (w : Word) : Prop :=
  match op with
  | .xfer _ => False
  | .rdx _ imm => w ≠ imm
  | .rdm _ imm mask => w &&& mask ≠ imm
  | .poll => False

theorem testFailed_harnessCheck (s : State) (p : Prop) [Decidable p] :
    (s.harnessCheck (decide p)).master.testFailed = true ↔ s.master.testFailed = true ∨ ¬ p := by
  rw [State.harnessCheck_master, Bool.or_eq_true, Bool.not_eq_true', decide_eq_false_iff_not]

theorem testFailed_perform (x : Transfer) (s : State) :
    (perform x s).master.testFailed = s.master.testFailed := by
  rw [perform_master]

/-- The test has failed after an operation exactly when it had failed before, or the check of the operation fails. -/
theorem testFailed_hostOp (op : HostOp) (rest : List HostOp) (s : State) :
    (hostOp op rest s).master.testFailed = true ↔
      s.master.testFailed = true ∨ op.CheckFails (busResponse op.access s).data := by
  rw [← testFailed_perform op.access s]
  cases op with
  | xfer t => exact (or_iff_left not_false).symm
  | rdx off imm => exact testFailed_harnessCheck _ _
  | rdm off imm mask => exact testFailed_harnessCheck _ _
  | poll =>
    rw [hostOp_poll]
    split <;> exact (or_iff_left not_false).symm

/-! ### What a step leaves of the fault records and of OUT (`20_memory.md` R60, R62) -/

theorem engineStep_busErrors {s t : State} (h : engineStep s = .next t) : t.busErrors = s.busErrors := by
  obtain ⟨_, rfl⟩ | ⟨_, rfl⟩ | ⟨_, _, hexec⟩ | ⟨_, _, rfl⟩ := engineStep_eq_next h
  · rfl
  · rfl
  · obtain ⟨_, _, _, _, herrors, _⟩ := sameOutsideCommand_of_exec hexec
    exact herrors
  · rfl

theorem guarded_mem {s t : State} (h : t.mem = s.mem) : (s.guarded t).mem = s.mem :=
  State.guarded_induct (P := fun u => u.mem = s.mem) rfl fun _ => h

/-- A host write leaves memory, or sets the lanes of a word of IN_A or IN_B. -/
theorem writeReg_mem (r : Reg) (w : Word) (s : State) :
    (writeReg r w s).mem = s.mem ∨
    ∃ b k, r = .buf b k ∧ b ≠ .out ∧ (writeReg r w s).mem = (s.setBufLanes b k w).mem := by
  have lanes : ∀ b k, (s.guarded (s.setBufLanes b k w)).mem = s.mem ∨
      (s.guarded (s.setBufLanes b k w)).mem = (s.setBufLanes b k w).mem := fun b k =>
    State.guarded_induct (P := fun u => u.mem = s.mem ∨ u.mem = (s.setBufLanes b k w).mem) (.inl rfl)
      fun _ => .inr rfl
  cases r with
  | id | caps | outLen | result | ctrl | status => exact .inl rfl
  | cmd | keyLen | nonceLen | lenA | lenB | indexLo | indexHi | key | nonce => exact .inl (guarded_mem rfl)
  | buf b k =>
    cases b with
    | inA => exact (lanes .inA k).imp_right fun h => ⟨_, _, rfl, by decide, h⟩
    | inB => exact (lanes .inB k).imp_right fun h => ⟨_, _, rfl, by decide, h⟩
    | out => exact .inl rfl

/-- A word of IN_A or IN_B lies below OUT. -/
theorem bufByte_out_setBufLanes {s : State} {b : Buffer} {k : Nat} (w : Word) (hb : b ≠ .out) (hwf : s.params.wf)
    (h4 : k % 4 = 0) (hk : k < s.params.bufBytes) (j : Nat) :
    (s.setBufLanes b k w).bufByte .out j = s.bufByte .out j := by
  obtain ⟨h16, _, hmax⟩ := hwf
  refine read?_setBufLanes_outside s b k w ?_
  cases b with
  | inA | inB =>
    simp only [Buffer.base]
    omega
  | out => exact absurd rfl hb

theorem busEffect_bufByte_out {s : State} (hwf : s.params.wf) (x : Transfer) (j : Nat) :
    (busEffect x s).bufByte .out j = s.bufByte .out j := by
  obtain e | ⟨_, _, e⟩ | ⟨r, w, htarget, e⟩ := busEffect_cases x s
  all_goals rw [e]
  · rfl
  · rfl
  · obtain hmem | ⟨b, k, rfl, hb, hmem⟩ := writeReg_mem r w s
    · rw [State.bufByte, hmem, State.bufByte]
    · obtain ⟨⟨_, h4⟩, hreg⟩ := target_eq_some htarget
      obtain ⟨hk, _, hk4⟩ := regAt_eq_buf hreg
      have hlanes := bufByte_out_setBufLanes w hb hwf (hk4.trans h4) hk j
      rw [State.bufByte, hmem]
      exact hlanes

theorem hostStep_bufByte_out {s : State} (hwf : s.params.wf) (j : Nat) :
    (hostStep s).bufByte .out j = s.bufByte .out j := by
  obtain e | ⟨x, _, e⟩ := hostStep_cases s
  · rw [e]
  · rw [e]
    exact busEffect_bufByte_out hwf x j

/-! ### Loading a 16-byte register by words (`30_encoding.md` R79) -/

/-- `ldkey` and `ldnonce` write the four words of their bytes, in order. -/
theorem loadWords_bytes16 (base : Nat) (v : Bytes16) :
    loadWords base v.toList =
      (List.finRange 4).map fun j => wr (BitVec.ofNat 18 (base + 4 * j)) (packWord v.toList j) := by
  rw [loadWords, Vector.length_toList]
  rfl

/-- The 16-byte value `u` once its words `js` have been replaced by those of `v`. -/
def setWords (v : Bytes16) (js : List (Fin 4)) (u : Bytes16) : Bytes16 :=
  js.foldl (fun u j => setLanes16 u j (packWord v.toList j)) u

theorem lane_packWord (v : Bytes16) (j i : Fin 4) :
    lane (packWord v.toList j) i = v[4 * j.val + i.val] := by
  have hget : ∀ k (h : k < 16), v.toList.getD k 0 = v[k] := by
    intro k h
    simp [h]
  obtain ⟨h0, h1, h2, h3⟩ := lane_laneWord (v.toList.getD (4 * j) 0) (v.toList.getD (4 * j + 1) 0)
    (v.toList.getD (4 * j + 2) 0) (v.toList.getD (4 * j + 3) 0)
  fin_cases i
  · exact h0.trans (hget _ _)
  · exact h1.trans (hget _ _)
  · exact h2.trans (hget _ _)
  · exact h3.trans (hget _ _)

theorem getElem_setLanes16_packWord (v u : Bytes16) (j : Fin 4) (i : Fin 16) (h : i.val / 4 = j.val) :
    (setLanes16 u j (packWord v.toList j))[i] = v[i] := by
  obtain ⟨r, hr⟩ : ∃ r : Fin 4, i.val = 4 * j.val + r.val := ⟨⟨i.val % 4, by omega⟩, by simp only; omega⟩
  have hlane := getElem_setLanes16 u j (packWord v.toList j) r
  rw [lane_packWord] at hlane
  simpa only [Fin.getElem_fin, hr] using hlane

/-- A byte is that of `v` once its word has been replaced, and stays so. -/
theorem getElem_setWords (v : Bytes16) (js : List (Fin 4)) (u : Bytes16) (i : Fin 16)
    (h : u[i] = v[i] ∨ ∃ j ∈ js, i.val / 4 = j.val) : (setWords v js u)[i] = v[i] := by
  induction js generalizing u with
  | nil => simpa [setWords] using h
  | cons j js ih =>
    refine ih _ ?_
    by_cases hj : i.val / 4 = j.val
    · exact .inl (getElem_setLanes16_packWord v u j i hj)
    · rw [getElem_setLanes16_ne u j _ i hj]
      refine h.imp_right ?_
      rintro ⟨j', hmem, hj'⟩
      obtain rfl | hmem := List.mem_cons.mp hmem
      · exact absurd hj' hj
      · exact ⟨j', hmem, hj'⟩

theorem setWords_finRange (v u : Bytes16) : setWords v (List.finRange 4) u = v := by
  apply Vector.ext
  intro i hi
  exact getElem_setWords v _ u ⟨i, hi⟩ (.inr ⟨⟨i / 4, by omega⟩, List.mem_finRange _, rfl⟩)

/-- The host's write of `w` to a 16-byte register at `base` whose value among the operands `o` holds. -/
def WritesWord (base : Nat) (o : Bytes16 → Operands) : Prop :=
  ∀ (s : State) (j : Fin 4) (w : Word) (u : Bytes16), s.busy = false → s.operands = o u →
    (busEffect (writeAt (BitVec.ofNat 18 (base + 4 * j)) w) s).busy = false ∧
    (busEffect (writeAt (BitVec.ofNat 18 (base + 4 * j)) w) s).operands = o (setLanes16 u j w)

theorem operands_foldl_writes {base : Nat} {o : Bytes16 → Operands} (hw : WritesWord base o) (v : Bytes16)
    (js : List (Fin 4)) {s : State} {u : Bytes16} (hidle : s.busy = false) (hu : s.operands = o u) :
    ((js.map fun j => wr (BitVec.ofNat 18 (base + 4 * j)) (packWord v.toList j)).foldl
      (fun s op => hostOp op [] s) s).operands = o (setWords v js u) := by
  induction js generalizing s u with
  | nil => exact hu
  | cons j js ih =>
    obtain ⟨hidle', hu'⟩ := hw s j (packWord v.toList j) u hidle hu
    exact ih (s := hostOp (wr (BitVec.ofNat 18 (base + 4 * j)) (packWord v.toList j)) [] s) hidle' hu'

theorem operands_loadWords {base : Nat} {o : Bytes16 → Operands} (hw : WritesWord base o) (v : Bytes16)
    {s : State} {u : Bytes16} (hidle : s.busy = false) (hu : s.operands = o u) :
    ((loadWords base v.toList).foldl (fun s op => hostOp op [] s) s).operands = o v := by
  rw [loadWords_bytes16, operands_foldl_writes hw v _ hidle hu, setWords_finRange]

theorem writesWord_key (o : Operands) : WritesWord 0x40 fun k => { o with key := k } := by
  intro s j w u hidle hu
  rw [busEffect_idle_of_lookup (registerMap_lookup_key j) hidle rfl, hu]
  exact ⟨hidle, rfl⟩

theorem writesWord_nonce (o : Operands) : WritesWord 0x50 fun n => { o with nonce := n } := by
  intro s j w u hidle hu
  rw [busEffect_idle_of_lookup (registerMap_lookup_nonce j) hidle rfl, hu]
  exact ⟨hidle, rfl⟩

/-! ### The obligations -/

/-- Settles O38: neither the engine's step nor an access erases a record. -/
theorem busErrorRecordsAreSticky : Obligations.BusErrorRecordsAreSticky := by
  intro s t hstep hreset off hoff
  obtain ⟨_, hengine⟩ | ⟨_, rfl⟩ | ⟨hr, _⟩ := step_eq_next hstep
  · rw [engineStep_busErrors hengine]
    exact hoff
  · exact (HostFrame.hostStep s.turnTaken).busErrors hoff
  · exact absurd hr hreset

/-- Settles O50: with nothing pending the engine does nothing, and the host cannot write the results. -/
theorem resultsAreStableWhileIdle : Obligations.ResultsAreStableWhileIdle := by
  intro s t hwf hidle hreset hstep
  obtain ⟨_, hengine⟩ | ⟨_, rfl⟩ | ⟨hr, _⟩ := step_eq_next hstep
  · have hpending : s.turnTaken.pending = none := s.busy_eq_false_iff.mp hidle
    rw [engineStep, hpending] at hengine
    cases hengine
    exact ⟨rfl, rfl, fun _ => rfl⟩
  · have hframe := HostFrame.hostStep s.turnTaken
    exact ⟨hframe.outLen, hframe.result, hostStep_bufByte_out (s := s.turnTaken) hwf⟩
  · exact absurd hr hreset

/-- Settles O54: bit 0 of the word read is BUSY. -/
theorem pollRepeatsWhileBusy : Obligations.PollRepeatsWhileBusy := by
  intro s rest h
  rw [hostStep_of_program h, hostOp_poll]
  split
  · rw [perform_master]
    exact h
  · rfl

/-- Settles O55: the transaction is the access of the operation with its response. -/
theorem hostStepIsOneRecordedAccess : Obligations.HostStepIsOneRecordedAccess := by
  intro s op rest h
  rw [hostStep_of_program h]
  refine ⟨{ xfer := op.access, resp := busResponse op.access s }, ?_, ?_, ?_, ?_, rfl, hostOp_trace op rest s,
    hostOp_device op rest s, fun hop => hostOp_program hop rest s⟩
  · rintro t rfl
    rfl
  · rintro off imm rfl
    rfl
  · rintro off imm mask rfl
    rfl
  · rintro rfl
    rfl

/-- Settles O56: each of the four writes sets the lanes of its word. -/
theorem ldkeyAndLdnonceLoadTheirBytes : Obligations.LdkeyAndLdnonceLoadTheirBytes :=
  fun s v hidle =>
    ⟨operands_loadWords (writesWord_key s.operands) v (u := s.operands.key) hidle rfl,
      operands_loadWords (writesWord_nonce s.operands) v (u := s.operands.nonce) hidle rfl⟩

/-- Settles O59, by the check of each operation. -/
theorem harnessChecksFailOnMismatch : Obligations.HarnessChecksFailOnMismatch := by
  intro s op rest h
  rw [hostStep_of_program h, testFailed_hostOp]
  refine or_congr_right ?_
  cases op with
  | xfer | poll => simp [HostOp.CheckFails]
  | rdx | rdm => simp [HostOp.CheckFails, HostOp.access]

end Sys2Proof.Machine
end
